-- ==== Sys2Proof/Word.lean ====
section
/-! DEFINITION. The two kinds of word LFE hands over: a frame byte and a clock value. -/

namespace Sys2Proof

/-- An output byte, 8 bits (rule R75). -/
abbrev Byte := BitVec 8

/-- A clock value handed to the transport: unsigned, `CLK_W = 64` bits (rule R12). LFE does no
arithmetic on it (log 22). -/
abbrev Clock := BitVec 64

end Sys2Proof
end

