-- ==== Sys2Proof/Config.lean ====
section
/-! DEFINITION. What is fixed for a build or left open by the spec: the parameters of rules R7 to R12 and the free
values. -/

namespace Sys2Proof

/-- The permutation table in force (rule R10). -/
inductive PermTable where
  | reference
  | asNamed
  deriving DecidableEq, Repr

/-- The build parameters an operation reads and none writes: `F`, the fraction bits of an intensity code (rule R9),
and `PERM_TABLE` (rule R10). -/
structure Build where
  F         : Nat
  permTable : PermTable
  deriving DecidableEq, Repr

/-- "an abstract timeline position": the open type `Time` (rule R12), a symbol with no arithmetic (log 6). -/
structure Time where
  sym : Nat
  deriving DecidableEq, Repr

namespace Config

/-- Rule R11: "20 bytes per transport call (fixed, not configurable)". -/
abbrev chunkMax : Nat := 20

/-- Rule R11: LEDs per latch byte. -/
abbrev latchDivisor : Nat := 32

/-- The defaults of rules R9 and R10: `F = 16`, `PERM_TABLE = REFERENCE`. -/
def defaultBuild : Build := ⟨16, .reference⟩

/-- The strap `N` that `State.reset` was sampled from. DESIGN CHOICE, unsafe (log 1). -/
abbrev strapN : Nat := 1

/-- The strap `ORDER` that `State.reset` was sampled from. DESIGN CHOICE, unsafe (log 1). -/
abbrev strapOrder : BitVec 3 := 0

/-- `BG_REQCLOCK`, "a single fixed large clock constant": open (rule R12, log 5). -/
opaque bgReqclock : Clock

/-- `T2C`, the collaborator's `time_to_clock`: a pure total function, otherwise open (rule R12, log 4). -/
opaque t2c : Time → Clock

/-- Free value: what `fault_pix` holds after a RESET that leaves `fault = 0` (rules R25, R32, log 3). -/
opaque freeFaultPix : Nat → Nat

/-- Free value: what `fault_ch` holds after a RESET that leaves `fault = 0` (rules R25, R32, log 3). -/
opaque freeFaultCh : Nat → BitVec 2

/-- Free value: the position a `RANGE` fault records when the index presented is none of the sequence's (log 26). -/
opaque freeIndex : Nat → Nat

/-- Free value: the code of a channel, by number, of a pixel whose index is none of the sequence's (log 26). -/
opaque freeCode : Nat → Nat → Nat

end Config

end Sys2Proof
end

