-- ==== Sys2Proof/Syntax.lean ====
section
/-! DEFINITION. The operations of LFE, one constructor per row of the opcode table, with their operands, and the
transactions that carry them. -/

namespace Sys2Proof

/-- A channel QUANT is applied to. The fourth channel `W` is never quantised (rule R110). -/
inductive Channel where
  | r
  | g
  | b
  deriving DecidableEq, Repr

/-- "an ordered 4-tuple of normalized intensities (red, green, blue, white-or-unused)" (rule R72). Each code is an
unsigned number of `F+1` bits (rule R71); `F` is a build parameter, so the codes are naturals that
`Instr.wellFormed` bounds. -/
structure Pixel where
  r : Nat
  g : Nat
  b : Nat
  w : Nat
  deriving DecidableEq, Repr

/-- One operation with its operands (rule R79). -/
inductive Instr where
  /-- PERM.RGB (R121): the gamma bytes of red, green and blue. -/
  | permRgb (gr gg gb : Byte)
  /-- PERM.RBG (R122). -/
  | permRbg (gr gg gb : Byte)
  /-- PERM.GRB (R123). -/
  | permGrb (gr gg gb : Byte)
  /-- PERM.GBR (R124). -/
  | permGbr (gr gg gb : Byte)
  /-- PERM.BRG (R125). -/
  | permBrg (gr gg gb : Byte)
  /-- PERM.BGR (R126). -/
  | permBgr (gr gg gb : Byte)
  /-- ORDER.RESERVED (R80): the colour-order code `11x`. -/
  | orderReserved (x : BitVec 1)
  /-- BYTE.GAMMA (R75): the output byte `1ggggggg`. -/
  | byteGamma (g : BitVec 7)
  /-- BYTE.ZERO (R75): the output byte `00000000`. -/
  | byteZero
  /-- BYTE.NEVER (R81): the byte `0vvvvvvv`, `v` not zero. -/
  | byteNever (v : BitVec 7)
  /-- SUBMIT.NOW (R161): a submit transaction with `has_target = 0`. -/
  | submitNow (pixels : List Pixel)
  /-- SUBMIT.AT (R162): a submit transaction with `has_target = 1`. -/
  | submitAt (pixels : List Pixel) (target : Time)
  /-- FAULT.NONE (R191): cause code 0. -/
  | faultNone
  /-- FAULT.RANGE (R192): `raise RangeFault(idx, c)`. -/
  | faultRange (idx : Nat) (c : Channel)
  /-- FAULT.CFG (R193): `raise CfgFault`. -/
  | faultCfg
  /-- FAULT.RESERVED (R191): cause code 3. -/
  | faultReserved
  /-- QUANT (R100): an intensity code, and the pixel index and channel a fault reports. -/
  | quant (q idx : Nat) (c : Channel)
  /-- GAMMA (R105): a gamma index. -/
  | gamma (k : Byte)
  /-- LATCH (R140). -/
  | latch
  /-- PIXEL (R141): the pixel index, and the pixel sequence PIX it reads. -/
  | pixel (idx : Nat) (pixels : List Pixel)
  /-- TERM (R142). -/
  | term
  /-- ENCODE (R143). -/
  | encode (pixels : List Pixel)
  /-- SUPPRESS (R163). -/
  | suppress (pixels : List Pixel)
  /-- MINCLK (R165). -/
  | minclk (hasTarget : Bool) (target : Time)
  /-- CHUNK (R166). -/
  | chunk (frame : List Byte)
  /-- DISPATCH (R168). -/
  | dispatch (bytes : List Byte) (minclock : Clock)
  /-- RESET (R220): the strap inputs `N` and `ORDER`. -/
  | reset (n : Nat) (order : BitVec 3)
  deriving DecidableEq, Repr

/-- The code space a transaction's first word is read in: the opcode table's `format` column. The four coded formats
overlap as bit patterns; the port tells them apart (log 9). -/
inductive Port where
  | orderCode
  | outByte
  | submitFlag
  | faultCause
  | internal
  deriving DecidableEq, Repr

/-- One transaction as it is presented: the port and its field words in order (rule R74 for a submit: the flag, the
target, then the pixel words in index order; log 9). -/
structure Txn where
  port  : Port
  words : List Nat
  deriving DecidableEq, Repr

/-- Why a transaction is not the encoding of an operation. Each is a refusal of the decoder, safe (log 19). -/
inductive DecodeError where
  /-- The port carries another number of words. -/
  | wordCount
  /-- A code word outside its field. -/
  | codeRange
  /-- An operand word outside its field. -/
  | operandRange
  deriving DecidableEq, Repr

end Sys2Proof
end

