-- ==== Sys2Proof/Machine/Arith.lean ====
section
/-! DEFINITION. The arithmetic helpers of rule R14, the width of an intensity code (R71) and the packing of a pixel word
(R72). Nothing here reads the state. -/

namespace Sys2Proof.Machine

/-- `ceil_div(a, b) = (a + b - 1) div b` (rule R14). -/
def ceilDiv (a b : Nat) : Nat := (a + b - 1) / b

/-- `rne(num / den)` (rule R14): the nearest integer, the even one when half-way. -/
def rne (num den : Nat) : Nat :=
  if 2 * (num % den) < den then num / den
  else if den < 2 * (num % den) then num / den + 1
  else if num / den % 2 = 0 then num / den
  else num / den + 1

/-- `q` is a code of `F+1` bits (rule R71). -/
def codeFits (F q : Nat) : Bool := decide (q < 2 ^ (F + 1))

/-- All four codes of the pixel have `F+1` bits. -/
def pixelFits (F : Nat) (p : Pixel) : Bool :=
  codeFits F p.r && codeFits F p.g && codeFits F p.b && codeFits F p.w

/-- Rule R72: the word `(W, B, G, R)`, red in the low bits. -/
def packPixel (F : Nat) (p : Pixel) : Nat :=
  p.r + 2 ^ (F + 1) * (p.g + 2 ^ (F + 1) * (p.b + 2 ^ (F + 1) * p.w))

/-- Rule R72 read back: bits `[F:0]`, `[2F+1:F+1]`, `[3F+2:2F+2]`, `[4F+3:3F+3]`. -/
def unpackPixel (F v : Nat) : Pixel :=
  ⟨v % 2 ^ (F + 1),
   v / 2 ^ (F + 1) % 2 ^ (F + 1),
   v / 2 ^ (F + 1) / 2 ^ (F + 1) % 2 ^ (F + 1),
   v / 2 ^ (F + 1) / 2 ^ (F + 1) / 2 ^ (F + 1) % 2 ^ (F + 1)⟩

/-- `v` is a pixel word of `4*(F+1)` bits (rule R72). -/
def pixelWordFits (F v : Nat) : Bool := decide (v < 2 ^ (4 * (F + 1)))

/-- The code of a channel in `fault_ch` (rule R191): 0 `R`, 1 `G`, 2 `B`. -/
def channelCode : Channel → BitVec 2
  | .r => 0
  | .g => 1
  | .b => 2

end Sys2Proof.Machine
end

