-- ==== Sys2Proof/WellFormed.lean ====
section
/-! DEFINITION. Which operations a port can carry, given the straps and the build: the operand domains of the spec. -/

namespace Sys2Proof

/-- "exactly `N` pixel words" (rule R74), each of `4*(F+1)` bits (R72). -/
def pixelsFormable (n F : Nat) (pixels : List Pixel) : Bool :=
  decide (pixels.length = n) && pixels.all (Machine.pixelFits F)

/-- What the port can carry of each operation under chain count `n` and fraction bits `F`. Any byte is carried to a PERM
(log 25), and any pixel index to PIXEL, QUANT and FAULT.RANGE (log 26). -/
def Instr.wellFormed (n F : Nat) : Instr → Bool
  | .permRgb _ _ _ => true
  | .permRbg _ _ _ => true
  | .permGrb _ _ _ => true
  | .permGbr _ _ _ => true
  | .permBrg _ _ _ => true
  | .permBgr _ _ _ => true
  | .orderReserved _ => true
  | .byteGamma _ => true
  | .byteZero => true
  | .byteNever v => decide (v ≠ 0)
  | .submitNow pixels => pixelsFormable n F pixels
  | .submitAt pixels _ => pixelsFormable n F pixels
  | .faultNone => true
  | .faultRange _ _ => true
  | .faultCfg => true
  | .faultReserved => true
  | .quant q _ _ => Machine.codeFits F q
  | .gamma _ => true
  | .latch => true
  | .pixel _ pixels => pixelsFormable n F pixels
  | .term => true
  | .encode pixels => pixelsFormable n F pixels
  | .suppress pixels => pixelsFormable n F pixels
  | .minclk _ _ => true
  | .chunk _ => true
  | .dispatch bytes _ => decide (1 ≤ bytes.length) && decide (bytes.length ≤ Config.chunkMax)
  | .reset _ _ => true

end Sys2Proof
end

