-- ==== Sys2Proof/Decode.lean ====
section
/-! DEFINITION. Reading a transaction's words (rules R72 to R75, R191) as an operation, and the encoder. The codes are
the spec's; the layout of the operand words and the opcodes of the internal operations are the model's (log 9). -/

namespace Sys2Proof

/-- A word of 8 bits. -/
def readByte (v : Nat) : Except DecodeError Byte :=
  if v < 256 then .ok (BitVec.ofNat 8 v) else .error .operandRange

/-- Words of 8 bits, all of them. -/
def readBytes : List Nat → Except DecodeError (List Byte)
  | [] => .ok []
  | v :: vs =>
    match readByte v with
    | .error e => .error e
    | .ok b =>
      match readBytes vs with
      | .error e => .error e
      | .ok bs => .ok (b :: bs)

/-- Pixel words of `4*(F+1)` bits in index order (rules R72, R74). -/
def readPixels (F : Nat) : List Nat → Except DecodeError (List Pixel)
  | [] => .ok []
  | v :: vs =>
    if Machine.pixelWordFits F v then
      match readPixels F vs with
      | .error e => .error e
      | .ok ps => .ok (Machine.unpackPixel F v :: ps)
    else .error .operandRange

/-- The channel codes of rule R191. -/
def readChannel : Nat → Except DecodeError Channel
  | 0 => .ok .r
  | 1 => .ok .g
  | 2 => .ok .b
  | _ => .error .operandRange

/-- A one-bit flag. -/
def readFlag : Nat → Except DecodeError Bool
  | 0 => .ok false
  | 1 => .ok true
  | _ => .error .codeRange

/-- The colour-order codes of rule R73; codes 0 to 5 select a PERM and carry its three gamma bytes, 6 and 7 are
reserved (R80). -/
def permOf (code : Nat) (gr gg gb : Byte) : Except DecodeError Instr :=
  match code with
  | 0 => .ok (.permRgb gr gg gb)
  | 1 => .ok (.permRbg gr gg gb)
  | 2 => .ok (.permGrb gr gg gb)
  | 3 => .ok (.permGbr gr gg gb)
  | 4 => .ok (.permBrg gr gg gb)
  | 5 => .ok (.permBgr gr gg gb)
  | 6 => .ok (.orderReserved 0)
  | 7 => .ok (.orderReserved 1)
  | _ => .error .codeRange

def decodeOrder : List Nat → Except DecodeError Instr
  | [code, r, g, b] =>
    match readByte r, readByte g, readByte b with
    | .ok gr, .ok gg, .ok gb => permOf code gr gg gb
    | _, _, _ => .error .operandRange
  | _ => .error .wordCount

/-- The two classes of rule R75, and the bytes `0x01` to `0x7F` of R81. -/
def decodeOutByte : List Nat → Except DecodeError Instr
  | [v] =>
    if v = 0 then .ok .byteZero
    else if v < 128 then .ok (.byteNever (BitVec.ofNat 7 v))
    else if v < 256 then .ok (.byteGamma (BitVec.ofNat 7 (v - 128)))
    else .error .codeRange
  | _ => .error .wordCount

/-- Rule R74: `has_target`, `target` (ignored when the flag is 0, rule R161), then the pixel words. -/
def decodeSubmit (F : Nat) : List Nat → Except DecodeError Instr
  | flag :: target :: ws =>
    match readFlag flag, readPixels F ws with
    | .ok false, .ok ps => .ok (.submitNow ps)
    | .ok true, .ok ps => .ok (.submitAt ps ⟨target⟩)
    | .error e, _ => .error e
    | _, .error e => .error e
  | _ => .error .wordCount

/-- The cause codes of rule R191; code 1 carries the pixel index and the channel code. -/
def decodeCause : List Nat → Except DecodeError Instr
  | [code, idx, ch] =>
    match code with
    | 0 => .ok .faultNone
    | 1 =>
      match readChannel ch with
      | .ok c => .ok (.faultRange idx c)
      | .error e => .error e
    | 2 => .ok .faultCfg
    | 3 => .ok .faultReserved
    | _ => .error .codeRange
  | _ => .error .wordCount

/-- The internal operations, numbered in the order of the opcode table. DESIGN CHOICE (log 9). -/
def decodeInternal (F : Nat) : List Nat → Except DecodeError Instr
  | [] => .error .wordCount
  | op :: args =>
    match op, args with
    | 0, [q, idx, ch] =>
      if Machine.codeFits F q then
        match readChannel ch with
        | .ok c => .ok (.quant q idx c)
        | .error e => .error e
      else .error .operandRange
    | 1, [k] =>
      match readByte k with
      | .ok b => .ok (.gamma b)
      | .error e => .error e
    | 2, [] => .ok .latch
    | 3, idx :: ws =>
      match readPixels F ws with
      | .ok ps => .ok (.pixel idx ps)
      | .error e => .error e
    | 4, [] => .ok .term
    | 5, ws =>
      match readPixels F ws with
      | .ok ps => .ok (.encode ps)
      | .error e => .error e
    | 6, ws =>
      match readPixels F ws with
      | .ok ps => .ok (.suppress ps)
      | .error e => .error e
    | 7, [flag, target] =>
      match readFlag flag with
      | .ok h => .ok (.minclk h ⟨target⟩)
      | .error e => .error e
    | 8, bs =>
      match readBytes bs with
      | .ok f => .ok (.chunk f)
      | .error e => .error e
    | 9, mc :: bs =>
      if mc < 2 ^ 64 then
        match readBytes bs with
        | .ok c => .ok (.dispatch c (BitVec.ofNat 64 mc))
        | .error e => .error e
      else .error .operandRange
    | 10, [n, order] =>
      if order < 8 then .ok (.reset n (BitVec.ofNat 3 order)) else .error .operandRange
    | _, _ => if op < 11 then .error .wordCount else .error .codeRange

/-- The operation a transaction carries, or the named reason it carries none. Total. -/
def decode (F : Nat) (t : Txn) : Except DecodeError Instr :=
  match t.port with
  | .orderCode => decodeOrder t.words
  | .outByte => decodeOutByte t.words
  | .submitFlag => decodeSubmit F t.words
  | .faultCause => decodeCause t.words
  | .internal => decodeInternal F t.words

/-- The words of bytes. -/
def byteWords (bs : List Byte) : List Nat := bs.map BitVec.toNat

/-- The pixel words of rule R72. -/
def pixelWords (F : Nat) (ps : List Pixel) : List Nat := ps.map (Machine.packPixel F)

/-- The transaction of an operation: the codes of rules R73, R74, R75 and R191, and the model's layout (log 9). -/
def encode (F : Nat) : Instr → Txn
  | .permRgb gr gg gb => ⟨.orderCode, [0, gr.toNat, gg.toNat, gb.toNat]⟩
  | .permRbg gr gg gb => ⟨.orderCode, [1, gr.toNat, gg.toNat, gb.toNat]⟩
  | .permGrb gr gg gb => ⟨.orderCode, [2, gr.toNat, gg.toNat, gb.toNat]⟩
  | .permGbr gr gg gb => ⟨.orderCode, [3, gr.toNat, gg.toNat, gb.toNat]⟩
  | .permBrg gr gg gb => ⟨.orderCode, [4, gr.toNat, gg.toNat, gb.toNat]⟩
  | .permBgr gr gg gb => ⟨.orderCode, [5, gr.toNat, gg.toNat, gb.toNat]⟩
  | .orderReserved x => ⟨.orderCode, [6 + x.toNat, 0, 0, 0]⟩
  | .byteGamma g => ⟨.outByte, [128 + g.toNat]⟩
  | .byteZero => ⟨.outByte, [0]⟩
  | .byteNever v => ⟨.outByte, [v.toNat]⟩
  | .submitNow ps => ⟨.submitFlag, 0 :: 0 :: pixelWords F ps⟩
  | .submitAt ps t => ⟨.submitFlag, 1 :: t.sym :: pixelWords F ps⟩
  | .faultNone => ⟨.faultCause, [0, 0, 0]⟩
  | .faultRange idx c => ⟨.faultCause, [1, idx, (Machine.channelCode c).toNat]⟩
  | .faultCfg => ⟨.faultCause, [2, 0, 0]⟩
  | .faultReserved => ⟨.faultCause, [3, 0, 0]⟩
  | .quant q idx c => ⟨.internal, [0, q, idx, (Machine.channelCode c).toNat]⟩
  | .gamma k => ⟨.internal, [1, k.toNat]⟩
  | .latch => ⟨.internal, [2]⟩
  | .pixel idx ps => ⟨.internal, 3 :: idx :: pixelWords F ps⟩
  | .term => ⟨.internal, [4]⟩
  | .encode ps => ⟨.internal, 5 :: pixelWords F ps⟩
  | .suppress ps => ⟨.internal, 6 :: pixelWords F ps⟩
  | .minclk h t => ⟨.internal, [7, h.toNat, t.sym]⟩
  | .chunk f => ⟨.internal, 8 :: byteWords f⟩
  | .dispatch c mc => ⟨.internal, 9 :: mc.toNat :: byteWords c⟩
  | .reset n order => ⟨.internal, [10, n, order.toNat]⟩

/-- The transaction a bare table word stands for, its operand words zero. The table gives the four coded formats 3, 8,
1 and 2 bits; those widths pick the port. In whole bytes the formats cannot be told apart: a word below 8 is then read
as a colour-order code and any other as an output byte, so that every distinct word of the table reads as one of its
rows (log 10). `n` is how many pixel words a submit carries. -/
def tableTxn (n nbits w : Nat) : Txn :=
  match nbits with
  | 1 => ⟨.submitFlag, w :: 0 :: List.replicate n 0⟩
  | 2 => ⟨.faultCause, [w, 0, 0]⟩
  | 3 => ⟨.orderCode, [w, 0, 0, 0]⟩
  | _ => if w < 8 then ⟨.orderCode, [w, 0, 0, 0]⟩ else ⟨.outByte, [w]⟩

/-- What the decoder reads from a table word under the straps and build of `State.reset` (log 10). -/
def decodeTableWord (nbits w : Nat) : Option Instr :=
  match decode Config.defaultBuild.F (tableTxn Config.strapN nbits w) with
  | .ok i => some i
  | .error _ => none

end Sys2Proof
end

