-- ==== Sys2Proof/Machine/Rom.lean ====
section
/-! DEFINITION. The gamma ROM's contents: the literal table of rule R106, one definition a row. -/

namespace Sys2Proof.Machine

/-- Rule R106, `GAMMA[0]` to `GAMMA[15]`. -/
def gammaRow0 : List Byte :=
  [0x80, 0x80, 0x80, 0x80, 0x80, 0x80, 0x80, 0x80, 0x80, 0x80, 0x80, 0x80, 0x80, 0x80, 0x80, 0x80]

/-- Rule R106, `GAMMA[16]` to `GAMMA[31]`. -/
def gammaRow1 : List Byte :=
  [0x80, 0x80, 0x80, 0x80, 0x80, 0x80, 0x80, 0x80, 0x80, 0x80, 0x80, 0x80, 0x81, 0x81, 0x81, 0x81]

/-- Rule R106, `GAMMA[32]` to `GAMMA[47]`. -/
def gammaRow2 : List Byte :=
  [0x81, 0x81, 0x81, 0x81, 0x81, 0x81, 0x81, 0x81, 0x81, 0x81, 0x81, 0x81, 0x82, 0x82, 0x82, 0x82]

/-- Rule R106, `GAMMA[48]` to `GAMMA[63]`. -/
def gammaRow3 : List Byte :=
  [0x82, 0x82, 0x82, 0x82, 0x82, 0x83, 0x83, 0x83, 0x83, 0x83, 0x83, 0x83, 0x83, 0x84, 0x84, 0x84]

/-- Rule R106, `GAMMA[64]` to `GAMMA[79]`. -/
def gammaRow4 : List Byte :=
  [0x84, 0x84, 0x84, 0x84, 0x85, 0x85, 0x85, 0x85, 0x85, 0x86, 0x86, 0x86, 0x86, 0x86, 0x87, 0x87]

/-- Rule R106, `GAMMA[80]` to `GAMMA[95]`. -/
def gammaRow5 : List Byte :=
  [0x87, 0x87, 0x87, 0x88, 0x88, 0x88, 0x88, 0x89, 0x89, 0x89, 0x89, 0x8A, 0x8A, 0x8A, 0x8A, 0x8B]

/-- Rule R106, `GAMMA[96]` to `GAMMA[111]`. -/
def gammaRow6 : List Byte :=
  [0x8B, 0x8B, 0x8C, 0x8C, 0x8C, 0x8D, 0x8D, 0x8D, 0x8D, 0x8E, 0x8E, 0x8E, 0x8F, 0x8F, 0x90, 0x90]

/-- Rule R106, `GAMMA[112]` to `GAMMA[127]`. -/
def gammaRow7 : List Byte :=
  [0x90, 0x91, 0x91, 0x91, 0x92, 0x92, 0x92, 0x93, 0x93, 0x94, 0x94, 0x95, 0x95, 0x95, 0x96, 0x96]

/-- Rule R106, `GAMMA[128]` to `GAMMA[143]`. -/
def gammaRow8 : List Byte :=
  [0x97, 0x97, 0x98, 0x98, 0x98, 0x99, 0x99, 0x9A, 0x9A, 0x9B, 0x9B, 0x9C, 0x9C, 0x9D, 0x9D, 0x9E]

/-- Rule R106, `GAMMA[144]` to `GAMMA[159]`. -/
def gammaRow9 : List Byte :=
  [0x9E, 0x9F, 0xA0, 0xA0, 0xA1, 0xA1, 0xA2, 0xA2, 0xA3, 0xA3, 0xA4, 0xA5, 0xA5, 0xA6, 0xA6, 0xA7]

/-- Rule R106, `GAMMA[160]` to `GAMMA[175]`. -/
def gammaRow10 : List Byte :=
  [0xA8, 0xA8, 0xA9, 0xA9, 0xAA, 0xAB, 0xAB, 0xAC, 0xAD, 0xAD, 0xAE, 0xAF, 0xAF, 0xB0, 0xB1, 0xB2]

/-- Rule R106, `GAMMA[176]` to `GAMMA[191]`. -/
def gammaRow11 : List Byte :=
  [0xB2, 0xB3, 0xB4, 0xB4, 0xB5, 0xB6, 0xB7, 0xB7, 0xB8, 0xB9, 0xBA, 0xBA, 0xBB, 0xBC, 0xBD, 0xBE]

/-- Rule R106, `GAMMA[192]` to `GAMMA[207]`. -/
def gammaRow12 : List Byte :=
  [0xBE, 0xBF, 0xC0, 0xC1, 0xC2, 0xC3, 0xC3, 0xC4, 0xC5, 0xC6, 0xC7, 0xC8, 0xC9, 0xCA, 0xCA, 0xCB]

/-- Rule R106, `GAMMA[208]` to `GAMMA[223]`. -/
def gammaRow13 : List Byte :=
  [0xCC, 0xCD, 0xCE, 0xCF, 0xD0, 0xD1, 0xD2, 0xD3, 0xD4, 0xD5, 0xD6, 0xD7, 0xD8, 0xD9, 0xDA, 0xDB]

/-- Rule R106, `GAMMA[224]` to `GAMMA[239]`. -/
def gammaRow14 : List Byte :=
  [0xDC, 0xDD, 0xDE, 0xDF, 0xE0, 0xE1, 0xE2, 0xE3, 0xE4, 0xE5, 0xE6, 0xE8, 0xE9, 0xEA, 0xEB, 0xEC]

/-- Rule R106, `GAMMA[240]` to `GAMMA[255]`. -/
def gammaRow15 : List Byte :=
  [0xED, 0xEE, 0xEF, 0xF1, 0xF2, 0xF3, 0xF4, 0xF5, 0xF6, 0xF8, 0xF9, 0xFA, 0xFB, 0xFD, 0xFE, 0xFF]

/-- The 256 literal bytes of rule R106, in index order. -/
def gammaBytes : List Byte :=
  gammaRow0 ++ gammaRow1 ++ gammaRow2 ++ gammaRow3 ++ gammaRow4 ++ gammaRow5 ++ gammaRow6 ++ gammaRow7 ++
  gammaRow8 ++ gammaRow9 ++ gammaRow10 ++ gammaRow11 ++ gammaRow12 ++ gammaRow13 ++ gammaRow14 ++ gammaRow15

/-- The literal table has 256 entries. -/
theorem gammaBytes_size : gammaBytes.toArray.size = 256 := by
  simp only [gammaBytes, List.size_toArray, List.length_append]
  rfl

/-- The literal table as the ROM holds it. -/
def gammaTable : Vector Byte 256 := ⟨gammaBytes.toArray, gammaBytes_size⟩

end Sys2Proof.Machine
end

