-- ==== Sys2Proof/Machine/State.lean ====
section
/-! DEFINITION. The state of LFE (rule R20), the spaces and records the model adds, and the state after reset (R32). -/

namespace Sys2Proof.Machine

/-- One dispatch: a call of the transport's `send` (rules R77, R172). -/
structure Dispatch where
  bytes    : List Byte
  minclock : Clock
  reqclock : Clock
  deriving DecidableEq, Repr

/-- What the latest operation returned (rule R236 observes it; log 12). -/
inductive Result where
  /-- Nothing: the operation returns no value, or returned at once. -/
  | nothing
  /-- QUANT's gamma index. -/
  | index (k : Byte)
  /-- GAMMA's byte. -/
  | byte (b : Byte)
  /-- PERM's `(b0, b1, b2)`. -/
  | triple (b0 b1 b2 : Byte)
  /-- ENCODE's frame. -/
  | frame (bytes : List Byte)
  /-- SUPPRESS's truth value. -/
  | truth (b : Bool)
  /-- MINCLK's clock value. -/
  | clock (c : Clock)
  /-- CHUNK's chunks. -/
  | chunks (cs : List (List Byte))
  deriving DecidableEq, Repr

/-- The whole state. `n` to `history` are rule R20's list. `frame` and `frameAhead` are space FRAME (R50, log 11), `build` the build
parameters (R30, log 7); `input`, `result`, `frames` and `freeCount` are the model's own (logs 8, 12, 3). -/
structure State where
  /-- Strap `N` (R24). -/
  n          : Nat
  /-- Strap `ORDER` (R24). -/
  order      : BitVec 3
  /-- The ROM `GAMMA` (R26). -/
  gamma      : Vector Byte 256
  /-- The previous-frame cache `last_pixels` (R27). -/
  lastPixels : Option (List Pixel)
  /-- The fault cause (R23, codes of R191). -/
  fault      : BitVec 2
  /-- `fault_pix` (R25). -/
  faultPix   : Nat
  /-- `fault_ch` (R25). -/
  faultCh    : BitVec 2
  /-- The dispatch history (R31), oldest first. -/
  history    : List Dispatch
  /-- The frame bytes emitted so far (R50), index 0 first; its length is the next free index (R16). -/
  frame      : List Byte
  /-- The bytes of FRAME that TERM has written at indices not emitted yet, by rising index (log 11). -/
  frameAhead : List Host.Cell
  /-- `F` and `PERM_TABLE`; no operation writes them. -/
  build      : Build
  /-- Transactions presented and not performed, oldest first: the host's (R176, `hostOperation`), or any other row of the opcode
  table where it is performed on its own (log 8). -/
  input      : List Txn
  /-- What the latest operation returned. -/
  result     : Result
  /-- Every frame an ENCODE transaction returned since reset, oldest first. -/
  frames     : List (List Byte)
  /-- Picks the next free value. -/
  freeCount  : Nat
  deriving DecidableEq, Repr

/-- Why the model stops: an access to an index that does not exist. Only an operation that is no transaction of the host's reaches
it (log 18). -/
inductive Fault where
  /-- LATCH, PIXEL, BYTE.GAMMA or BYTE.ZERO would emit at a FRAME index that does not exist (R50). Safe. -/
  | frameOverrun
  deriving DecidableEq, Repr

/-- Why a transaction has no meaning. -/
inductive Refusal where
  /-- An arm of `exec` without its meaning. Safe. -/
  | notModelled (mnemonic : String)
  /-- Raised by `step`: the words on the port are no operation's. Safe (log 19). -/
  | undecodable (e : DecodeError)
  /-- Raised by every operation that takes a pixel sequence: not exactly `N` pixels, "refuses a list of another length
  and gives it no meaning" (R150). Safe (log 19). -/
  | pixelCount
  /-- Raised by the same operations and QUANT: a code that `F+1` bits cannot carry (R71). Safe (log 19). -/
  | codeWidth
  /-- Raised by DISPATCH: a chunk of no byte or more than 20 (R77). Safe (log 19). -/
  | chunkLength
  /-- Raised by BYTE.NEVER: "never emitted" (R81). Safe. -/
  | byteNeverEmitted
  /-- Raised by FAULT.RESERVED: "never held" (R191). Safe. -/
  | causeNeverHeld
  deriving DecidableEq, Repr

/-- The state after RESET (rule R32) with the straps of Config (log 1), `fault_pix` and `fault_ch` at 0 (log 2), nothing
presented yet. -/
def State.reset : State :=
  { n          := Config.strapN
    order      := Config.strapOrder
    gamma      := gammaTable
    lastPixels := none
    fault      := 0
    faultPix   := 0
    faultCh    := 0
    history    := []
    frame      := []
    frameAhead := []
    build      := Config.defaultBuild
    input      := []
    result     := .nothing
    frames     := []
    freeCount  := 0 }

end Sys2Proof.Machine
end

