-- ==== Sys2Proof/Machine/Flags.lean ====
section
/-! DEFINITION. The one status LFE has: the fault cause and its information (rules R23, R25, R191). LFE has no condition
code. -/

namespace Sys2Proof.Machine

/-- Cause code 0 of rule R191, `NONE`. -/
abbrev causeNone : BitVec 2 := 0

/-- Cause code 1 of rule R191, `RANGE`. -/
abbrev causeRange : BitVec 2 := 1

/-- Cause code 2 of rule R191, `CFG`. -/
abbrev causeCfg : BitVec 2 := 2

/-- The faulted state, `fault != 0` (rule R194). -/
def State.faulted (s : State) : Bool := decide (s.fault ≠ causeNone)

/-- A colour-order code rule R80 reserves: 6 or 7. -/
def orderReserved (order : BitVec 3) : Bool := decide (5 < order.toNat)

/-- The status fields as the host reads them, at any time and without side effect (rules R25, R209). While the cause is
`NONE` the other two are unspecified. -/
structure Status where
  fault    : BitVec 2
  faultPix : Nat
  faultCh  : BitVec 2
  deriving DecidableEq, Repr

/-- A read of the status fields (rule R209). -/
def State.status (s : State) : Status := ⟨s.fault, s.faultPix, s.faultCh⟩

end Sys2Proof.Machine
end

