-- ==== Sys2Proof/Machine/Operands.lean ====
section
/-! DEFINITION. The operands of LFE's operations: what a port carries (R74, R150), the gamma index and gamma byte of a
code (R78, R100, R105), the permutations (R121 to R127) and the frame indices (R51, R152). -/

namespace Sys2Proof.Machine

/-- Why a pixel sequence is not one the port carries: not exactly `N` pixels (R74, R150), or a code wider than `F+1`
bits (R71). -/
def pixelsRefusal (s : State) (pixels : List Pixel) : Option Refusal :=
  if pixels.length ≠ s.n then some .pixelCount
  else if pixels.all (pixelFits s.build.F) then none
  else some .codeWidth

/-- Rule R100: the gamma index `rne(255 * q / 2^F)` of an in-range code, none above `2^F` (R103). -/
def quantIndex (F q : Nat) : Option Byte :=
  if 2 ^ F < q then none else some (BitVec.ofNat 8 (rne (255 * q) (2 ^ F)))

/-- Rule R105: a read of the ROM at a gamma index. -/
def gammaRead (s : State) (k : Byte) : Byte := s.gamma[k.toNat]'k.isLt

/-- A read of PIX at an index the sequence does not have (R50, R141): four codes of `F+1` bits (R71), each a free value
(log 26). -/
def freePixel (s : State) : Pixel :=
  ⟨Config.freeCode s.freeCount 0 % 2 ^ (s.build.F + 1), Config.freeCode s.freeCount 1 % 2 ^ (s.build.F + 1),
   Config.freeCode s.freeCount 2 % 2 ^ (s.build.F + 1), Config.freeCode s.freeCount 3 % 2 ^ (s.build.F + 1)⟩

/-- A free position for `fault_pix`, below `N` where there is such a position (R20, log 26). -/
def freeIndex (s : State) : Nat :=
  if s.n = 0 then Config.freeIndex s.freeCount else Config.freeIndex s.freeCount % s.n

/-- Three output bytes `(b0, b1, b2)` (rule R120). -/
structure Triple where
  b0 : Byte
  b1 : Byte
  b2 : Byte
  deriving DecidableEq, Repr

/-- The bytes of a triple in emission order. -/
def Triple.bytes (t : Triple) : List Byte := [t.b0, t.b1, t.b2]

/-- Rule R121, and R127 for `AS_NAMED`. The spec gives PERM gamma bytes only (R19, R120); this one and the five below move any
three bytes. DESIGN CHOICE (log 25). -/
def permRgb (t : PermTable) (gr gg gb : Byte) : Triple :=
  match t with
  | .reference => ⟨gg, gr, gb⟩
  | .asNamed => ⟨gr, gg, gb⟩

/-- Rule R122; R127 leaves the row as it is. -/
def permRbg (t : PermTable) (gr gg gb : Byte) : Triple :=
  match t with
  | .reference => ⟨gr, gb, gg⟩
  | .asNamed => ⟨gr, gb, gg⟩

/-- Rule R123, and R127 for `AS_NAMED`. -/
def permGrb (t : PermTable) (gr gg gb : Byte) : Triple :=
  match t with
  | .reference => ⟨gg, gb, gr⟩
  | .asNamed => ⟨gg, gr, gb⟩

/-- Rule R124; R127 leaves the row as it is. -/
def permGbr (t : PermTable) (gr gg gb : Byte) : Triple :=
  match t with
  | .reference => ⟨gg, gb, gr⟩
  | .asNamed => ⟨gg, gb, gr⟩

/-- Rule R125; R127 leaves the row as it is. -/
def permBrg (t : PermTable) (gr gg gb : Byte) : Triple :=
  match t with
  | .reference => ⟨gb, gr, gg⟩
  | .asNamed => ⟨gb, gr, gg⟩

/-- Rule R126; R127 leaves the row as it is. -/
def permBgr (t : PermTable) (gr gg gb : Byte) : Triple :=
  match t with
  | .reference => ⟨gb, gg, gr⟩
  | .asNamed => ⟨gb, gg, gr⟩

/-- The PERM operation a colour-order code selects (rule R73); none for the reserved codes (R80). -/
def permute (t : PermTable) (order : BitVec 3) (gr gg gb : Byte) : Option Triple :=
  match order.toNat with
  | 0 => some (permRgb t gr gg gb)
  | 1 => some (permRbg t gr gg gb)
  | 2 => some (permGrb t gr gg gb)
  | 3 => some (permGbr t gr gg gb)
  | 4 => some (permBrg t gr gg gb)
  | 5 => some (permBgr t gr gg gb)
  | _ => none

/-- `L = ceil_div(N, 32)`, the length of the latch preamble (rule R140). -/
def latchLen (n : Nat) : Nat := ceilDiv n Config.latchDivisor

/-- `ceil_div(N, 32) + 3*N`, the number of FRAME indices (rules R50, R76). -/
def frameLen (n : Nat) : Nat := latchLen n + 3 * n

/-- `L + 3*i + j`, the frame index of output byte `j` of pixel `i` (rules R51, R152). -/
def frameIndex (n i j : Nat) : Nat := latchLen n + 3 * i + j

/-- The byte `1ggggggg` (rule R75). -/
def gammaByteOf (g : BitVec 7) : Byte := 0x80 ||| g.zeroExtend 8

end Sys2Proof.Machine
end

