-- ==== Sys2Proof/Machine/Ops.lean ====
section
/-! DEFINITION. The named operations over the state that the meanings share: field writes, raising a fault and RESET, the
emission of frame bytes, ENCODE's frame, and the dispatch of chunks. -/

namespace Sys2Proof.Machine

/-- Records what the operation returned. -/
def State.setResult (s : State) (r : Result) : State := { s with result := r }

/-- `FRAME <- []` (rule R143). -/
def State.clearFrame (s : State) : State := { s with frame := [], frameAhead := [] }

/-- A byte written at an index of FRAME that is not emitted yet, replacing what was written there; the cells stay in rising
order of index. -/
def setCell (i : Nat) (b : Byte) : List Host.Cell → List Host.Cell
  | [] => [(i, b)]
  | c :: cs => if c.1 < i then c :: setCell i b cs else if c.1 = i then (i, b) :: cs else (i, b) :: c :: cs

/-- `FRAME[i] <- b` (rule R142). It does not move the next free index, which only `emit` advances (R16; DESIGN CHOICE for an index not
emitted yet, log 11). -/
def State.storeFrame (s : State) (i : Nat) (b : Byte) : State :=
  if i < s.frame.length then { s with frame := s.frame.set i b } else { s with frameAhead := setCell i b s.frameAhead }

/-- A read of FRAME at an index: none where nothing has been written. -/
def State.frameAt (s : State) (i : Nat) : Option Byte :=
  if i < s.frame.length then s.frame[i]? else s.frameAhead.lookup i

/-- `emit` of each byte in turn: writes of FRAME at the next free index (rule R16), over what TERM may have written there. -/
def State.pushBytes (s : State) (bytes : List Byte) : State :=
  { s with frame := s.frame ++ bytes
           frameAhead := s.frameAhead.filter fun c => decide (s.frame.length + bytes.length ≤ c.1) }

/-- `last_pixels <- pixels` (rule R164), by value. -/
def State.setCache (s : State) (pixels : List Pixel) : State := { s with lastPixels := some pixels }

/-- Records a frame an ENCODE transaction returned (rule R236). -/
def State.pushFrame (s : State) (bytes : List Byte) : State := { s with frames := s.frames ++ [bytes] }

/-- `dispatch(bytes, minclock, BG_REQCLOCK)`: appends to `history` (rules R168, R172). -/
def State.pushDispatch (s : State) (bytes : List Byte) (minclock : Clock) : State :=
  { s with history := s.history ++ [⟨bytes, minclock, Config.bgReqclock⟩] }

/-- Counts one free value as drawn (logs 3, 26). -/
def State.draw (s : State) : State := { s with freeCount := s.freeCount + 1 }

/-- A write of the three fault fields together. -/
def State.setFault (s : State) (cause : BitVec 2) (pix : Nat) (ch : BitVec 2) : State :=
  { s with fault := cause, faultPix := pix, faultCh := ch }

/-- A `raise` (rule R16). -/
inductive Raise where
  /-- `RangeFault(i, c)` (rule R192). -/
  | range (idx : Nat) (c : Channel)
  /-- `CfgFault` (rule R193). -/
  | cfg
  deriving DecidableEq, Repr

/-- TAKING A FAULT (rule R199): saves the cause and its information in `fault`, `fault_pix`, `fault_ch`, and nothing
else; the operation in progress ends and returns nothing. "Once non-zero it keeps its value until the next reset" (R23),
so a raise in the faulted state leaves the recorded cause (log 14). -/
def raise (e : Raise) (s : State) : State :=
  if s.fault = causeNone then
    match e with
    | .range idx c => (s.setFault causeRange idx (channelCode c)).setResult .nothing
    | .cfg => (s.setFault causeCfg 0 0).setResult .nothing
  else s.setResult .nothing

/-- A raise with the index as it was presented. Rule R192 has `fault_pix <- i` and R20 has `fault_pix < N`; for an index not
below `N`, where both cannot hold, the position is a free value and the rest of the raise is as it stands (log 26). -/
def raisePresented (e : Raise) (s : State) : State :=
  match e with
  | .range idx c => if idx < s.n then raise (.range idx c) s else raise (.range (freeIndex s) c) s.draw
  | .cfg => raise .cfg s

/-- The field writes of RESET before its check of `ORDER` (rules R220, R32). `fault` is 0; `fault_pix` and `fault_ch` are
then unspecified, so they take the next free values (log 3). The transactions the host has yet to have performed stay. -/
def resetFields (n : Nat) (order : BitVec 3) (s : State) : State :=
  { s with
    n          := n
    order      := order
    gamma      := gammaTable
    lastPixels := none
    fault      := causeNone
    faultPix   := Config.freeFaultPix s.freeCount
    faultCh    := Config.freeFaultCh s.freeCount
    history    := []
    frame      := []
    frameAhead := []
    result     := .nothing
    frames     := []
    freeCount  := s.freeCount + 1 }

/-- RESET (rule R220), the only return from the faulted state (R200): a reserved `ORDER` raises `CfgFault`. -/
def resetTo (n : Nat) (order : BitVec 3) (s : State) : State :=
  if orderReserved order then raise .cfg (resetFields n order s) else resetFields n order s

/-- "the block is idle in the faulted state" (rule R199; R149, R173): the operation returns at once and changes nothing
(log 13). -/
def unlessFaulted (s : State) (k : Host.Outcome State Fault Refusal) : Host.Outcome State Fault Refusal :=
  if s.faulted then .next (s.setResult .nothing) else k

/-- A transaction with a pixel sequence the port cannot carry is refused (rules R74, R150, log 19). -/
def withPixels (s : State) (pixels : List Pixel) (k : Host.Outcome State Fault Refusal) :
    Host.Outcome State Fault Refusal :=
  match pixelsRefusal s pixels with
  | some r => .refused r
  | none => k

/-- `emit` of each byte in turn (rule R16). An index past the last of FRAME does not exist (R50, log 18). -/
def emitAll (bytes : List Byte) (s : State) : Host.Outcome State Fault Refusal :=
  if s.frame.length + bytes.length ≤ frameLen s.n then
    .next ((s.pushBytes bytes).setResult .nothing)
  else .fault .frameOverrun

/-- QUANT then GAMMA on one channel (rules R100, R103, R105). -/
def channelByte (s : State) (idx : Nat) (c : Channel) (q : Nat) : Except Raise Byte :=
  match quantIndex s.build.F q with
  | some k => .ok (gammaRead s k)
  | none => .error (.range idx c)

/-- PIXEL's three bytes (rule R141): the channels in the order `R`, `G`, `B`, then the permutation `ORDER` selects. A
reserved `ORDER` selects none (R80, log 20). -/
def pixelBytes (s : State) (idx : Nat) (p : Pixel) : Except Raise (List Byte) :=
  match channelByte s idx .r p.r with
  | .error e => .error e
  | .ok gr =>
    match channelByte s idx .g p.g with
    | .error e => .error e
    | .ok gg =>
      match channelByte s idx .b p.b with
      | .error e => .error e
      | .ok gb =>
        match permute s.build.permTable s.order gr gg gb with
        | some t => .ok t.bytes
        | none => .error .cfg

/-- PIXEL for each pixel from index `idx` on, in increasing index (rule R143 step 2); the first raise ends it (R198). -/
def dataBytes (s : State) (idx : Nat) : List Pixel → Except Raise (List Byte)
  | [] => .ok []
  | p :: ps =>
    match pixelBytes s idx p with
    | .error e => .error e
    | .ok bs =>
      match dataBytes s (idx + 1) ps with
      | .error e => .error e
      | .ok rest => .ok (bs ++ rest)

/-- PIXEL on one pixel (rule R141): its three bytes are emitted, or its first out-of-range channel is raised for. -/
def emitPixel (idx : Nat) (p : Pixel) (s : State) : Host.Outcome State Fault Refusal :=
  match pixelBytes s idx p with
  | .error e => .next (raisePresented e s)
  | .ok bs => emitAll bs s

/-- LATCH's bytes (rule R140). -/
def latchBytes (n : Nat) : List Byte := List.replicate (latchLen n) 0

/-- TERM's three writes of space FRAME (rule R142), for `N >= 1`. -/
def termStores (s : State) : State :=
  ((s.storeFrame (frameIndex s.n (s.n - 1) 0) 0).storeFrame (frameIndex s.n (s.n - 1) 1) 0).storeFrame
    (frameIndex s.n (s.n - 1) 2) 0

/-- TERM's three writes (rule R142) on the bytes of a frame emitted to its end, for `N >= 1`. -/
def termWrite (n : Nat) (frame : List Byte) : List Byte :=
  ((frame.set (frameIndex n (n - 1) 0) 0).set (frameIndex n (n - 1) 1) 0).set (frameIndex n (n - 1) 2) 0

/-- The frame of ENCODE (rule R143), or the fault the first failing PIXEL raises. -/
def encodeFrame (s : State) (pixels : List Pixel) : Except Raise (List Byte) :=
  match dataBytes s 0 pixels with
  | .error e => .error e
  | .ok d =>
    if 1 ≤ s.n then .ok (termWrite s.n (latchBytes s.n ++ d)) else .ok (latchBytes s.n ++ d)

/-- SUPPRESS (rule R163): `last_pixels != none` and equal to the sequence. -/
def suppresses (s : State) (pixels : List Pixel) : Bool := decide (s.lastPixels = some pixels)

/-- MINCLK (rule R165). -/
def minClock (hasTarget : Bool) (target : Time) : Clock := if hasTarget then Config.t2c target else 0

/-- CHUNK (rule R166): `frame[20*j .. min(20*j + 20, n))` for each `j` below `ceil_div(n, 20)`. -/
def chunksOf (frame : List Byte) : List (List Byte) :=
  (List.range (ceilDiv frame.length Config.chunkMax)).map fun j =>
    (frame.drop (Config.chunkMax * j)).take Config.chunkMax

/-- DISPATCH of each chunk in order with one `minclock` (rules R160, R168). -/
def dispatchAll (chunks : List (List Byte)) (minclock : Clock) (s : State) : State :=
  match chunks with
  | [] => s
  | c :: cs => dispatchAll cs minclock (s.pushDispatch c minclock)

/-- SUBMIT (rule R160). -/
def submit (pixels : List Pixel) (hasTarget : Bool) (target : Time) (s : State) : Host.Outcome State Fault Refusal :=
  withPixels s pixels <| unlessFaulted s <|
    if suppresses s pixels then .next (s.setResult .nothing)
    else
      match encodeFrame s pixels with
      | .error e => .next (raise e (s.setCache pixels).clearFrame)
      | .ok f =>
        .next ((dispatchAll (chunksOf f) (minClock hasTarget target)
          (s.setCache pixels).clearFrame).setResult .nothing)

/-- The result of a PERM operation. -/
def returnTriple (t : Triple) (s : State) : State := s.setResult (.triple t.b0 t.b1 t.b2)

end Sys2Proof.Machine
end

