-- ==== Sys2Proof/Machine/Datapath.lean ====
section
/-! DEFINITION. The meanings of the channel datapath: QUANT (R100 to R103), GAMMA (R105) and the output bytes (R75, R81). -/

namespace Sys2Proof.Machine

/-- QUANT (rule R100): the gamma index, or `RangeFault(idx, c)` for a code above `2^F` (R103). The index is "used only to report
a fault", so an in-range code has its result under every index (log 26 for the report). -/
def execQuant (q idx : Nat) (c : Channel) (s : State) : Host.Outcome State Fault Refusal :=
  if codeFits s.build.F q then
    unlessFaulted s <|
      match quantIndex s.build.F q with
      | some k => .next (s.setResult (.index k))
      | none => .next (raisePresented (.range idx c) s)
  else .refused .codeWidth

/-- GAMMA (rule R105): the ROM's byte. -/
def execGamma (k : Byte) (s : State) : Host.Outcome State Fault Refusal :=
  unlessFaulted s (.next (s.setResult (.byte (gammaRead s k))))

/-- BYTE.GAMMA (rules R75, R16): `emit` of a byte of the gamma class (log 17). -/
def execByteGamma (g : BitVec 7) (s : State) : Host.Outcome State Fault Refusal :=
  unlessFaulted s (emitAll [gammaByteOf g] s)

/-- BYTE.ZERO (rules R75, R16): `emit(0x00)` (log 17). -/
def execByteZero (s : State) : Host.Outcome State Fault Refusal :=
  unlessFaulted s (emitAll [0] s)

/-- BYTE.NEVER (rule R81): the bytes `0x01` to `0x7F` "are never emitted". -/
def execByteNever (_v : BitVec 7) (_s : State) : Host.Outcome State Fault Refusal :=
  .refused .byteNeverEmitted

end Sys2Proof.Machine
end

