-- ==== Sys2Proof/Machine/Faults.lean ====
section
/-! DEFINITION. The meanings of the fault_cause rows (R191 to R193) and of RESET (R220). -/

namespace Sys2Proof.Machine

/-- FAULT.NONE (rule R191): "raised by nothing", so no fault is taken (log 16). -/
def execFaultNone (s : State) : Host.Outcome State Fault Refusal :=
  .next (s.setResult .nothing)

/-- FAULT.RANGE (rule R192): `raise RangeFault(idx, c)` (log 16, and log 26 for an index not below `N`). -/
def execFaultRange (idx : Nat) (c : Channel) (s : State) : Host.Outcome State Fault Refusal :=
  unlessFaulted s (.next (raisePresented (.range idx c) s))

/-- FAULT.CFG (rule R193): `raise CfgFault` (log 16). -/
def execFaultCfg (s : State) : Host.Outcome State Fault Refusal :=
  .next (raise .cfg s)

/-- FAULT.RESERVED (rule R191): cause code 3 is "never held". -/
def execFaultReserved (_s : State) : Host.Outcome State Fault Refusal :=
  .refused .causeNeverHeld

/-- RESET (rule R220). -/
def execReset (n : Nat) (order : BitVec 3) (s : State) : Host.Outcome State Fault Refusal :=
  .next (resetTo n order s)

end Sys2Proof.Machine
end

