-- ==== Sys2Proof/Machine/Framing.lean ====
section
/-! DEFINITION. The meanings of the framing operations: LATCH (R140), PIXEL (R141), TERM (R142) and ENCODE (R143). -/

namespace Sys2Proof.Machine

/-- LATCH (rule R140): emits `ceil_div(N, 32)` zero bytes. -/
def execLatch (s : State) : Host.Outcome State Fault Refusal :=
  unlessFaulted s (emitAll (latchBytes s.n) s)

/-- PIXEL (rule R141): the three gamma bytes of `PIX[idx]` in the permutation of `ORDER`, or the fault of its first
out-of-range channel. At an index the sequence does not have, the pixel read is a free value (log 26). -/
def execPixel (idx : Nat) (pixels : List Pixel) (s : State) : Host.Outcome State Fault Refusal :=
  withPixels s pixels <| unlessFaulted s <|
    match pixels[idx]? with
    | some p => emitPixel idx p s
    | none => emitPixel idx (freePixel s) s.draw

/-- TERM (rule R142): overwrites the last pixel's three bytes with zero; it does not run when `N = 0`. It
writes its three indices whether or not they have been emitted (log 11). -/
def execTerm (s : State) : Host.Outcome State Fault Refusal :=
  unlessFaulted s <|
    if s.n = 0 then .next (s.setResult .nothing)
    else .next ((termStores s).setResult .nothing)

/-- ENCODE (rule R143): the whole frame in one step, or no frame and the first fault (R149). FRAME starts empty and nothing
keeps it (R29, log 11). -/
def execEncode (pixels : List Pixel) (s : State) : Host.Outcome State Fault Refusal :=
  withPixels s pixels <| unlessFaulted s <|
    match encodeFrame s pixels with
    | .error e => .next (raise e s.clearFrame)
    | .ok f => .next ((s.clearFrame.pushFrame f).setResult (.frame f))

end Sys2Proof.Machine
end

