-- ==== Sys2Proof/Machine/Permute.lean ====
section
/-! DEFINITION. The meanings of the order_code rows: the six PERM operations (R121 to R127) and the reserved codes (R80).
An operand that is no gamma byte is permuted like any other (log 25). -/

namespace Sys2Proof.Machine

/-- PERM.RGB (rule R121). -/
def execPermRgb (gr gg gb : Byte) (s : State) : Host.Outcome State Fault Refusal :=
  unlessFaulted s (.next (returnTriple (permRgb s.build.permTable gr gg gb) s))

/-- PERM.RBG (rule R122). -/
def execPermRbg (gr gg gb : Byte) (s : State) : Host.Outcome State Fault Refusal :=
  unlessFaulted s (.next (returnTriple (permRbg s.build.permTable gr gg gb) s))

/-- PERM.GRB (rule R123). -/
def execPermGrb (gr gg gb : Byte) (s : State) : Host.Outcome State Fault Refusal :=
  unlessFaulted s (.next (returnTriple (permGrb s.build.permTable gr gg gb) s))

/-- PERM.GBR (rule R124). -/
def execPermGbr (gr gg gb : Byte) (s : State) : Host.Outcome State Fault Refusal :=
  unlessFaulted s (.next (returnTriple (permGbr s.build.permTable gr gg gb) s))

/-- PERM.BRG (rule R125). -/
def execPermBrg (gr gg gb : Byte) (s : State) : Host.Outcome State Fault Refusal :=
  unlessFaulted s (.next (returnTriple (permBrg s.build.permTable gr gg gb) s))

/-- PERM.BGR (rule R126). -/
def execPermBgr (gr gg gb : Byte) (s : State) : Host.Outcome State Fault Refusal :=
  unlessFaulted s (.next (returnTriple (permBgr s.build.permTable gr gg gb) s))

/-- ORDER.RESERVED (rules R80, R193): RESET samples the code `11x`, with the chain count held, and raises `CfgFault`
(log 15). -/
def execOrderReserved (x : BitVec 1) (s : State) : Host.Outcome State Fault Refusal :=
  .next (resetTo s.n (3#2 ++ x) s)

end Sys2Proof.Machine
end

