-- ==== Sys2Proof/Machine/Scheduler.lean ====
section
/-! DEFINITION. The meanings of unit TS: SUBMIT.NOW and SUBMIT.AT (R160 to R162), SUPPRESS (R163), MINCLK (R165), CHUNK
(R166) and DISPATCH (R168). -/

namespace Sys2Proof.Machine

/-- SUBMIT.NOW (rule R161): `has_target = 0`, the target ignored. -/
def execSubmitNow (pixels : List Pixel) (s : State) : Host.Outcome State Fault Refusal :=
  submit pixels false ⟨0⟩ s

/-- SUBMIT.AT (rule R162): `has_target = 1`. -/
def execSubmitAt (pixels : List Pixel) (target : Time) (s : State) : Host.Outcome State Fault Refusal :=
  submit pixels true target s

/-- SUPPRESS (rule R163). -/
def execSuppress (pixels : List Pixel) (s : State) : Host.Outcome State Fault Refusal :=
  withPixels s pixels <| unlessFaulted s (.next (s.setResult (.truth (suppresses s pixels))))

/-- MINCLK (rule R165). -/
def execMinclk (hasTarget : Bool) (target : Time) (s : State) : Host.Outcome State Fault Refusal :=
  unlessFaulted s (.next (s.setResult (.clock (minClock hasTarget target))))

/-- CHUNK (rule R166). -/
def execChunk (frame : List Byte) (s : State) : Host.Outcome State Fault Refusal :=
  unlessFaulted s (.next (s.setResult (.chunks (chunksOf frame))))

/-- DISPATCH (rule R168) of one chunk of 1 to 20 bytes (R77). Performed on its own it takes bytes of any value and appends them; the
spec dispatches frame bytes, of which none is `0x01` to `0x7F` (R18, R81). DESIGN CHOICE (log 25). -/
def execDispatch (bytes : List Byte) (minclock : Clock) (s : State) : Host.Outcome State Fault Refusal :=
  if 1 ≤ bytes.length ∧ bytes.length ≤ Config.chunkMax then
    unlessFaulted s (.next ((s.pushDispatch bytes minclock).setResult .nothing))
  else .refused .chunkLength

end Sys2Proof.Machine
end

