-- ==== Sys2Proof/Machine/Dispatch.lean ====
section
/-! DEFINITION. One arm per operation. -/

namespace Sys2Proof.Machine

def exec (i : Instr) (s : State) : Host.Outcome State Fault Refusal :=
  match i with
  | .permRgb gr gg gb => Sys2Proof.Machine.execPermRgb gr gg gb s
  | .permRbg gr gg gb => Sys2Proof.Machine.execPermRbg gr gg gb s
  | .permGrb gr gg gb => Sys2Proof.Machine.execPermGrb gr gg gb s
  | .permGbr gr gg gb => Sys2Proof.Machine.execPermGbr gr gg gb s
  | .permBrg gr gg gb => Sys2Proof.Machine.execPermBrg gr gg gb s
  | .permBgr gr gg gb => Sys2Proof.Machine.execPermBgr gr gg gb s
  | .orderReserved x => Sys2Proof.Machine.execOrderReserved x s
  | .byteGamma g => Sys2Proof.Machine.execByteGamma g s
  | .byteZero => Sys2Proof.Machine.execByteZero s
  | .byteNever v => Sys2Proof.Machine.execByteNever v s
  | .submitNow pixels => Sys2Proof.Machine.execSubmitNow pixels s
  | .submitAt pixels target => Sys2Proof.Machine.execSubmitAt pixels target s
  | .faultNone => Sys2Proof.Machine.execFaultNone s
  | .faultRange idx c => Sys2Proof.Machine.execFaultRange idx c s
  | .faultCfg => Sys2Proof.Machine.execFaultCfg s
  | .faultReserved => Sys2Proof.Machine.execFaultReserved s
  | .quant q idx c => Sys2Proof.Machine.execQuant q idx c s
  | .gamma k => Sys2Proof.Machine.execGamma k s
  | .latch => Sys2Proof.Machine.execLatch s
  | .pixel idx pixels => Sys2Proof.Machine.execPixel idx pixels s
  | .term => Sys2Proof.Machine.execTerm s
  | .encode pixels => Sys2Proof.Machine.execEncode pixels s
  | .suppress pixels => Sys2Proof.Machine.execSuppress pixels s
  | .minclk hasTarget target => Sys2Proof.Machine.execMinclk hasTarget target s
  | .chunk frame => Sys2Proof.Machine.execChunk frame s
  | .dispatch bytes minclock => Sys2Proof.Machine.execDispatch bytes minclock s
  | .reset n order => Sys2Proof.Machine.execReset n order s

end Sys2Proof.Machine
end

