-- ==== Sys2Proof/Machine/Fetch.lean ====
section
/-! DEFINITION. Taking the next transaction the host has presented (rules R6, R59; log 8). -/

namespace Sys2Proof.Machine

/-- The operations the host reaches LFE through, "exactly three" (rule R176): RESET, submit in its two forms, and encode. The other
rows of the opcode table are parts of these, codes of the formats, or the reset event under a reserved code (log 15). -/
def hostOperation : Instr → Bool
  | .reset _ _ => true
  | .submitNow _ => true
  | .submitAt _ _ => true
  | .encode _ => true
  | .permRgb _ _ _ | .permRbg _ _ _ | .permGrb _ _ _ | .permGbr _ _ _ | .permBrg _ _ _ | .permBgr _ _ _ => false
  | .orderReserved _ | .byteGamma _ | .byteZero | .byteNever _ => false
  | .faultNone | .faultRange _ _ | .faultCfg | .faultReserved => false
  | .quant _ _ _ | .gamma _ | .latch | .pixel _ _ | .term => false
  | .suppress _ | .minclk _ _ | .chunk _ | .dispatch _ _ => false

/-- The transaction is one of the host's (rule R176). -/
def hostTransaction (F : Nat) (x : Txn) : Bool :=
  match decode F x with
  | .ok i => hostOperation i
  | .error _ => false

/-- The state with the presented transactions replaced. -/
def State.setInput (s : State) (ts : List Txn) : State := { s with input := ts }

/-- The oldest transaction and the state that waits with the rest; none when nothing is presented. -/
def fetch (s : State) : Option (Txn × State) :=
  match s.input with
  | [] => none
  | t :: rest => some (t, s.setInput rest)

/-- The state with the transaction of a table word presented next, before any other (log 10). -/
def presentWord (s : State) (nbits w : Nat) : State :=
  s.setInput (tableTxn s.n nbits w :: s.input)

end Sys2Proof.Machine
end

