-- ==== Sys2Proof/Machine/Step.lean ====
section
/-! DEFINITION. One step: the next transaction, decoded and performed whole (rules R6, R59, R208). -/

namespace Sys2Proof.Machine

/-- Performs the next transaction. With none presented LFE is idle and keeps all its state (rule R208, log 8). -/
def step (s : State) : Host.Outcome State Fault Refusal :=
  match fetch s with
  | none => .next s
  | some (t, s') =>
    match decode s.build.F t with
    | .error e => .refused (.undecodable e)
    | .ok i => exec i s'

/-- `s` with the transaction of a table word as the next one `step` performs (logs 8, 10). -/
def State.withFetchWord (s : State) (nbits w : Nat) : State := presentWord s nbits w

end Sys2Proof.Machine
end

