-- ==== Sys2Proof/Safety.lean ====
section
/-! DEFINITION. What counts as a good state and a good run of LFE, in the terms the claims use. -/

namespace Sys2Proof.Machine

/-- The document's input domain for one pixel: `R`, `G` and `B` codes at most `2^F`, that is at most 1.0 (rules R71,
R146). `W` has no such bound (R110). -/
def inRange (F : Nat) (p : Pixel) : Prop := p.r ≤ 2 ^ F ∧ p.g ≤ 2 ^ F ∧ p.b ≤ 2 ^ F

/-- The first channel of a pixel whose code is above `2^F`, in the order `R`, `G`, `B` (rule R198). -/
def firstBadChannel (F : Nat) (p : Pixel) : Option Channel :=
  if 2 ^ F < p.r then some .r
  else if 2 ^ F < p.g then some .g
  else if 2 ^ F < p.b then some .b
  else none

/-- An output byte of one of the two classes of rule R75: a gamma byte or a zero byte. -/
def legalByte (b : Byte) : Prop := b = 0 ∨ 0x80 ≤ b.toNat

/-- The operations that are the reset event: RESET, and RESET's sampling of a reserved code (log 15). -/
def isReset : Instr → Bool
  | .reset _ _ => true
  | .orderReserved _ => true
  | _ => false

/-- The rows of the table that are codes nothing emits or holds (rules R81, R191). -/
def isNeverCode : Instr → Bool
  | .byteNever _ => true
  | .faultReserved => true
  | _ => false

/-- The operations that read or write space FRAME where it stands. -/
def writesFrame : Instr → Bool
  | .latch => true
  | .pixel _ _ => true
  | .term => true
  | .byteGamma _ => true
  | .byteZero => true
  | _ => false

/-- The two forms of SUBMIT on one pixel sequence. -/
def isSubmitOf (i : Instr) (pixels : List Pixel) : Prop :=
  i = .submitNow pixels ∨ ∃ target, i = .submitAt pixels target

/-- A run of operations, each finished before the next begins (rule R59), stopped by the first stop. -/
def execAll : List Instr → State → Host.Outcome State Fault Refusal
  | [], s => .next s
  | i :: is, s =>
    match exec i s with
    | .next t => execAll is t
    | .fault r => .fault r
    | .refused r => .refused r

/-- `k` is the integer nearest to `num / den`, the even one when half-way (rule R14, `rne`). -/
def isNearestEven (num den k : Nat) : Prop :=
  2 * (k * den) ≤ 2 * num + den ∧ 2 * num ≤ 2 * (k * den) + den ∧
    (2 * num = 2 * (k * den) + den ∨ 2 * num + den = 2 * (k * den) → k % 2 = 0)

/-- `triple(i)` of rule R143: the three bytes PIXEL gives an in-range pixel under a legal `ORDER`. -/
def tripleOf (s : State) (p : Pixel) : List Byte :=
  match quantIndex s.build.F p.r, quantIndex s.build.F p.g, quantIndex s.build.F p.b with
  | some kr, some kg, some kb =>
    match permute s.build.permTable s.order (gammaRead s kr) (gammaRead s kg) (gammaRead s kb) with
    | some t => t.bytes
    | none => []
  | _, _, _ => []

/-- The closed form of rule R143 for `N >= 1`, `zeros(L) ++ triple(0) ++ ... ++ triple(N-2) ++ [0,0,0]`, and the empty
frame of R147 for `N = 0`. -/
def frameOf (s : State) (pixels : List Pixel) : List Byte :=
  if s.n = 0 then []
  else List.replicate (ceilDiv s.n 32) 0 ++ pixels.dropLast.flatMap (tripleOf s) ++ [0, 0, 0]

/-- The dispatches of one frame with one `minclock` (rules R166, R168). -/
def dispatchesOf (frame : List Byte) (minclock : Clock) : List Dispatch :=
  (chunksOf frame).map fun c => ⟨c, minclock, Config.bgReqclock⟩

/-- A SUBMIT as its pixel sequence with the target, none for SUBMIT.NOW (rules R160 to R162). -/
structure Submission where
  pixels : List Pixel
  target : Option Time
  deriving DecidableEq, Repr

/-- The operation of a submission. -/
def Submission.instr (x : Submission) : Instr :=
  match x.target with
  | none => .submitNow x.pixels
  | some t => .submitAt x.pixels t

/-- The `minclock` of a submission's dispatches (rule R165). -/
def Submission.minclock (x : Submission) : Clock :=
  match x.target with
  | none => 0
  | some t => Config.t2c t

/-- The submissions of a run that are not suppressed, given what `last_pixels` holds before it (rule R174). -/
def transmitted (last : Option (List Pixel)) : List Submission → List Submission
  | [] => []
  | x :: rest => if last = some x.pixels then transmitted last rest else x :: transmitted (some x.pixels) rest

/-- ENCODE's operations in the order of rule R143: LATCH, PIXEL for each index, TERM. -/
def encodeSteps (n : Nat) (pixels : List Pixel) : List Instr :=
  .latch :: ((List.range n).map fun idx => Instr.pixel idx pixels) ++ [.term]

/-- "A run that ends with `fault != 0` is not a good end" (rule R236). -/
def State.goodEnd (s : State) : Prop := s.fault = causeNone

/-- FRAME as the model holds it, under the chain count `n`: the canonical form of the cells, and what no operation writes into
it. -/
structure FrameWf (n : Nat) (frame : List Byte) (cells : List Host.Cell) : Prop where
  /-- FRAME has no index past its last (R50). -/
  bound      : frame.length ≤ frameLen n
  /-- No byte `0x01` to `0x7F` is emitted (R81). -/
  legal      : ∀ b ∈ frame, legalByte b
  /-- The cells ahead stand in rising order of index, one an index. -/
  sorted     : cells.Pairwise fun c d => c.1 < d.1
  /-- They are indices of FRAME that are not emitted yet. -/
  ahead      : ∀ c ∈ cells, frame.length ≤ c.1 ∧ c.1 < frameLen n
  /-- Their bytes are of the two classes too. -/
  aheadLegal : ∀ c ∈ cells, legalByte c.2

/-- What every operation keeps of the state. -/
structure State.Inv (s : State) : Prop where
  /-- The ROM holds its literal table (R26). -/
  romIntact    : s.gamma = gammaTable
  /-- Cause code 3 is "never held" (R191). -/
  causeLegal   : s.fault ≠ 3
  /-- After a `RANGE` fault `fault_pix` is a pixel index, where there is one, and `fault_ch` a channel code (R25). With `N = 0` no
  pixel is encoded, and only QUANT or a cause row performed on its own raises (log 26). -/
  rangeInfo    : s.fault = causeRange → (0 < s.n → s.faultPix < s.n) ∧ s.faultCh ≠ 3
  /-- After a `CFG` fault both are 0 (R25). -/
  cfgInfo      : s.fault = causeCfg → s.faultPix = 0 ∧ s.faultCh = 0
  /-- With a reserved `ORDER` the block is in the faulted state (R193). -/
  orderLegal   : orderReserved s.order = true → s.fault = causeCfg
  /-- The cache is `none` or one sequence of exactly `N` pixels (R27). -/
  cacheShape   : ∀ ps, s.lastPixels = some ps → pixelsFormable s.n s.build.F ps = true
  /-- FRAME is in its canonical form, within its bound (R50) and free of bytes `0x01` to `0x7F` (R81). -/
  frameWf      : FrameWf s.n s.frame s.frameAhead
  /-- Every frame ENCODE returned has the length of R144 and bytes of the two classes. -/
  framesShape  : ∀ f ∈ s.frames, f.length = frameLen s.n ∧ ∀ b ∈ f, legalByte b
  /-- Every dispatch has 1 to 20 bytes and the background request clock (R77). -/
  historyShape : ∀ d ∈ s.history, 1 ≤ d.bytes.length ∧ d.bytes.length ≤ 20 ∧ d.reqclock = Config.bgReqclock

/-- What LFE keeps besides while it is reached through the host's three operations only (rule R176). -/
structure State.HostInv (s : State) : Prop where
  /-- Every transaction presented is one of the host's. -/
  input        : ∀ x ∈ s.input, hostTransaction s.build.F x = true
  /-- "no frame ... is held" between transactions (R32, R29). -/
  frameEmpty   : s.frame = [] ∧ s.frameAhead = []
  /-- "a host that sees such a byte in a dispatch is looking at a broken implementation" (R81). -/
  historyLegal : ∀ d ∈ s.history, ∀ b ∈ d.bytes, legalByte b
  /-- After a `RANGE` fault `fault_pix` is below `N` (R20), so there is a pixel. -/
  rangePixel   : s.fault = causeRange → s.faultPix < s.n

end Sys2Proof.Machine
end

