-- ==== Sys2Proof/Certificates/Slice0/Obligations.lean ====
section
/-! DEFINITION. The statements for the provers, from the numbered rules of spec/. A next state written as a record update
of the old one states the frame: every field not named is unchanged. -/

open Sys2Proof Sys2Proof.Machine

/-! ## RESET and the fault causes -/

/-- RESET (R220): the straps are sampled, the cache and the history emptied, `fault` is 0 for a legal `ORDER` and 2 with both
information fields 0 for a reserved one. With `fault = 0` the information fields hold values the statement leaves open (R32).
That they are drawn by a counter that advances, that the presented transactions stay and that the FRAME space and the model's
records are emptied is the model's (logs 3, 8, 11, 12). -/
def Obligations.ResetSamplesStrapsAndClears : Prop :=
  ∀ (s : State) (n : Nat) (order : BitVec 3),
    (order.toNat ≤ 5 → ∃ (p : Nat) (c : BitVec 2),
      exec (.reset n order) s = .next
        { s with n := n, order := order, gamma := gammaTable, lastPixels := none, fault := 0, faultPix := p, faultCh := c,
                 history := [], frame := [], frameAhead := [], result := .nothing, frames := [],
                 freeCount := s.freeCount + 1 }) ∧
    (5 < order.toNat →
      exec (.reset n order) s = .next
        { s with n := n, order := order, gamma := gammaTable, lastPixels := none, fault := 2, faultPix := 0, faultCh := 0,
                 history := [], frame := [], frameAhead := [], result := .nothing, frames := [],
                 freeCount := s.freeCount + 1 })

/-- The reserved codes 6 and 7 (R80, R193): sampling one is a RESET that ends in the `CFG` fault. That the row holds the
chain count is the model's choice (log 15). -/
def Obligations.ReservedOrderRaisesCfgFault : Prop :=
  ∀ (s : State) (x : BitVec 1),
    exec (.orderReserved x) s = .next
      { s with order := BitVec.ofNat 3 (6 + x.toNat), gamma := gammaTable, lastPixels := none, fault := 2, faultPix := 0,
               faultCh := 0, history := [], frame := [], frameAhead := [], result := .nothing, frames := [],
               freeCount := s.freeCount + 1 }

/-- The cause rows as operations (R191 to R193, R199; that they are performed on their own is the model's choice, log 16): a raise
saves the cause and its information and nothing else, and cause `NONE` is no fault. For a pixel index not below `N` the position
saved is a free value of the model's, below `N` if any is (log 26). -/
def Obligations.CauseRowsTakeTheFault : Prop :=
  ∀ (s : State), s.fault = 0 →
    (exec .faultNone s = .next { s with result := .nothing }) ∧
    (∀ (idx : Nat) (c : Channel), idx < s.n →
      exec (.faultRange idx c) s = .next
        { s with fault := 1, faultPix := idx, faultCh := match c with | .r => 0 | .g => 1 | .b => 2, result := .nothing }) ∧
    (∀ (idx : Nat) (c : Channel), s.n ≤ idx → ∃ k, (0 < s.n → k < s.n) ∧
      exec (.faultRange idx c) s = .next
        { s with fault := 1, faultPix := k, faultCh := match c with | .r => 0 | .g => 1 | .b => 2, result := .nothing,
                 freeCount := s.freeCount + 1 }) ∧
    (exec .faultCfg s = .next { s with fault := 2, faultPix := 0, faultCh := 0, result := .nothing })

/-- The faulted state is idle (R194, R199, R149, R173): every operation the port can carry, but the reset event and the two
rows that are never codes, answers a next state in which nothing but the record of the last result has changed. That the internal
operations too are idle is the model's reading (log 13). -/
def Obligations.FaultedStateIsIdle : Prop :=
  ∀ (s : State) (i : Instr), s.fault ≠ 0 → i.wellFormed s.n s.build.F = true → isReset i = false → isNeverCode i = false →
    exec i s = .next { s with result := .nothing }

/-- "`fault != 0` is terminal: no operation but RESET clears or changes" it (R194): over any run of operations without a reset
event that starts in the faulted state, no cause, no information field, no cache, no history and no FRAME byte changes. -/
def Obligations.OnlyResetLeavesTheFaultedState : Prop :=
  ∀ (is : List Instr) (s t : State), s.fault ≠ 0 → (∀ i ∈ is, isReset i = false) → execAll is s = .next t →
    ∃ r, t = { s with result := r }

/-- The rows that are codes nothing emits or holds (R81, R191) stop by name in every state. -/
def Obligations.NeverCodesStop : Prop :=
  ∀ (s : State), (∀ v : BitVec 7, exec (.byteNever v) s = .refused .byteNeverEmitted) ∧
    exec .faultReserved s = .refused .causeNeverHeld

/-- A pixel sequence that is not of exactly `N` pixels has no meaning (R150, R74): it is refused by name. -/
def Obligations.OtherLengthsAreRefused : Prop :=
  ∀ (s : State) (pixels : List Pixel), pixels.length ≠ s.n →
    exec (.encode pixels) s = .refused .pixelCount ∧ exec (.submitNow pixels) s = .refused .pixelCount ∧
    (∀ target, exec (.submitAt pixels target) s = .refused .pixelCount) ∧
    exec (.suppress pixels) s = .refused .pixelCount ∧ (∀ idx, exec (.pixel idx pixels) s = .refused .pixelCount)

/-- Operands outside an operation's domain are refused, and nothing else stops (the model's stops, logs 18 and 19): an
operation the port can carry, not one of the two rows that are never codes, completes; those that emit complete or stop at a FRAME
index that does not exist (R50). -/
def Obligations.NothingElseStops : Prop :=
  ∀ (s : State) (i : Instr),
    (i.wellFormed s.n s.build.F = false → ∃ r, exec i s = .refused r) ∧
    (i.wellFormed s.n s.build.F = true → isNeverCode i = false →
      (∃ t, exec i s = .next t) ∨ writesFrame i = true ∧ i ≠ .term ∧ exec i s = .fault .frameOverrun)

/-! ## The channel datapath -/

/-- QUANT (R100, R103): an in-range code gives the nearest index, ties to even, at most 255; a code above `2^F` raises
`RangeFault` and gives none. The pixel index is "used only to report a fault", so the result is the same under every index;
what is reported for an index not below `N` is said by QuantOutsideTheSequenceReportsAFreePosition. -/
def Obligations.QuantGivesNearestIndexOrRangeFault : Prop :=
  ∀ (s : State) (q idx : Nat) (c : Channel), s.fault = 0 → q < 2 ^ (s.build.F + 1) →
    (q ≤ 2 ^ s.build.F → ∃ k : Byte, isNearestEven (255 * q) (2 ^ s.build.F) k.toNat ∧
      exec (.quant q idx c) s = .next { s with result := .index k }) ∧
    (2 ^ s.build.F < q → idx < s.n →
      exec (.quant q idx c) s = .next
        { s with fault := 1, faultPix := idx, faultCh := match c with | .r => 0 | .g => 1 | .b => 2, result := .nothing })

/-- The integer form of R101. -/
def Obligations.QuantIntegerForm : Prop :=
  ∀ (F q : Nat), 1 ≤ F → q ≤ 2 ^ F → rne (255 * q) (2 ^ F) = (255 * q + 2 ^ (F - 1)) >>> F

/-- The only in-range tie is the code of 0.5, and it gives 128 (R102). -/
def Obligations.QuantTiesOnlyAtOneHalf : Prop :=
  ∀ (F q : Nat), 1 ≤ F → q ≤ 2 ^ F →
    ((∃ m, 2 * (255 * q) = 2 * (m * 2 ^ F) + 2 ^ F) ↔ q = 2 ^ (F - 1)) ∧ quantIndex F (2 ^ (F - 1)) = some 128

/-- Every index is reached from its canonical code when `F >= 8` (R104), which at `F = 16` is `257*k` up to 127 and `257*k + 1`
from 128 on; below 8 some index is reached by no code. -/
def Obligations.CanonicalCodesReachEveryIndex : Prop :=
  (∀ (F : Nat) (k : Byte), 8 ≤ F →
    rne (k.toNat * 2 ^ F) 255 ≤ 2 ^ F ∧ quantIndex F (rne (k.toNat * 2 ^ F) 255) = some k) ∧
  (∀ k : Byte, rne (k.toNat * 2 ^ 16) 255 = if k.toNat ≤ 127 then 257 * k.toNat else 257 * k.toNat + 1) ∧
  (∀ F : Nat, F < 8 → ∃ k : Byte, ∀ q, quantIndex F q ≠ some k)

/-- GAMMA (R105): with the ROM intact it returns `0x80 | g` with `g` the integer nearest to `127 * pow25(k/255)` (no entry
is a tie), and changes nothing else. -/
def Obligations.GammaReturnsThePowerLawByte : Prop :=
  ∀ (s : State) (k : Byte), s.fault = 0 → s.gamma = gammaTable →
    ∃ g : BitVec 7,
      |127 * (((k.toNat : ℝ) / 255) * ((k.toNat : ℝ) / 255) * Real.sqrt ((k.toNat : ℝ) / 255)) - (g.toNat : ℝ)| < 1 / 2 ∧
      exec (.gamma k) s = .next { s with result := .byte (0x80#8 ||| g.zeroExtend 8) }

/-- The properties of the literal table (R107): non-decreasing with the top bit set; no entry is zero; the bytes `E7`, `F0`,
`F7` and `FC` do not occur and the other 124 gamma bytes do; two indices give one byte, so two in-range pixel sequences
that differ in a gamma index before the last pixel encode to the same frame. The last clause takes `F >= 8`, since with few
fraction bits no code reaches a second index of a byte (R104), and `N >= 2`. -/
def Obligations.GammaTableShape : Prop :=
  (∀ i j : Fin 256, i < j → gammaTable[i].toNat ≤ gammaTable[j].toNat) ∧
  (∀ i : Fin 256, gammaTable[i] &&& 0x80 = 0x80 ∧ gammaTable[i] ≠ 0) ∧
  (∀ b : Byte, (∃ i : Fin 256, gammaTable[i] = b) ↔ 0x80 ≤ b.toNat ∧ b ≠ 0xE7 ∧ b ≠ 0xF0 ∧ b ≠ 0xF7 ∧ b ≠ 0xFC) ∧
  (∃ i j : Fin 256, i ≠ j ∧ gammaTable[i] = gammaTable[j]) ∧
  (∀ s : State, s.fault = 0 → s.order.toNat ≤ 5 → s.gamma = gammaTable → 2 ≤ s.n → 8 ≤ s.build.F →
    ∃ (ps qs : List Pixel) (p q : Pixel) (t : State) (f : List Byte),
      pixelsFormable s.n s.build.F ps = true ∧ pixelsFormable s.n s.build.F qs = true ∧
      (∀ x ∈ ps ++ qs, inRange s.build.F x) ∧
      ps.dropLast[0]? = some p ∧ qs.dropLast[0]? = some q ∧ quantIndex s.build.F p.r ≠ quantIndex s.build.F q.r ∧
      exec (.encode ps) s = .next t ∧ exec (.encode qs) s = .next t ∧ t.result = .frame f)

/-! ## The permutations -/

/-- The six PERM operations under `REFERENCE` (R121 to R126). That a PERM performed on its own, under a code other than the strap
`ORDER`, moves its three operand bytes, and moves a byte `0x00` to `0x7F` as it does a gamma byte, is the model's choice (log
25). -/
def Obligations.PermOperationsFollowTheReferenceTable : Prop :=
  ∀ (s : State) (gr gg gb : Byte), s.fault = 0 → s.build.permTable = .reference →
    exec (.permRgb gr gg gb) s = .next { s with result := .triple gg gr gb } ∧
    exec (.permRbg gr gg gb) s = .next { s with result := .triple gr gb gg } ∧
    exec (.permGrb gr gg gb) s = .next { s with result := .triple gg gb gr } ∧
    exec (.permGbr gr gg gb) s = .next { s with result := .triple gg gb gr } ∧
    exec (.permBrg gr gg gb) s = .next { s with result := .triple gb gr gg } ∧
    exec (.permBgr gr gg gb) s = .next { s with result := .triple gb gg gr }

/-- The six PERM operations under `AS_NAMED` (R127): the channels in the order the name spells. That a PERM performed on its own,
under a code other than the strap `ORDER`, moves its three operand bytes, and moves a byte `0x00` to `0x7F` as it does a gamma
byte, is the model's choice (log 25). -/
def Obligations.PermOperationsAsNamed : Prop :=
  ∀ (s : State) (gr gg gb : Byte), s.fault = 0 → s.build.permTable = .asNamed →
    exec (.permRgb gr gg gb) s = .next { s with result := .triple gr gg gb } ∧
    exec (.permRbg gr gg gb) s = .next { s with result := .triple gr gb gg } ∧
    exec (.permGrb gr gg gb) s = .next { s with result := .triple gg gr gb } ∧
    exec (.permGbr gr gg gb) s = .next { s with result := .triple gg gb gr } ∧
    exec (.permBrg gr gg gb) s = .next { s with result := .triple gb gr gg } ∧
    exec (.permBgr gr gg gb) s = .next { s with result := .triple gb gg gr }

/-- Under either table a legal `ORDER` selects a rearrangement of the three bytes, so every output byte of PERM is one of its
inputs and three equal bytes give the same triple under all (R129); a reserved code selects none (R80). -/
def Obligations.PermIsARearrangement : Prop :=
  ∀ (t : PermTable) (order : BitVec 3) (gr gg gb : Byte),
    (order.toNat ≤ 5 → ∃ tr, permute t order gr gg gb = some tr ∧ List.Perm [tr.b0, tr.b1, tr.b2] [gr, gg, gb]) ∧
    (5 < order.toNat → permute t order gr gg gb = none)

/-- The duplication of the reference table (R128): what each code gives; codes 2 and 3 are the same function, any two other legal
codes differ, no code is the identity arrangement, and only code 0 gives green, red, blue. -/
def Obligations.ReferenceTableDuplication : Prop :=
  (∀ gr gg gb : Byte,
    permute .reference 0 gr gg gb = some ⟨gg, gr, gb⟩ ∧ permute .reference 1 gr gg gb = some ⟨gr, gb, gg⟩ ∧
    permute .reference 2 gr gg gb = some ⟨gg, gb, gr⟩ ∧ permute .reference 3 gr gg gb = some ⟨gg, gb, gr⟩ ∧
    permute .reference 4 gr gg gb = some ⟨gb, gr, gg⟩ ∧ permute .reference 5 gr gg gb = some ⟨gb, gg, gr⟩) ∧
  (∀ gr gg gb : Byte, permute .reference 2 gr gg gb = permute .reference 3 gr gg gb) ∧
  (∀ a b : BitVec 3, a.toNat ≤ 5 → b.toNat ≤ 5 → a ≠ b → (∀ gr gg gb : Byte, permute .reference a gr gg gb = permute .reference b gr gg gb) →
    a = 2 ∧ b = 3 ∨ a = 3 ∧ b = 2) ∧
  (∀ a : BitVec 3, ¬ ∀ gr gg gb : Byte, permute .reference a gr gg gb = some ⟨gr, gg, gb⟩) ∧
  (∀ a : BitVec 3, (∀ gr gg gb : Byte, permute .reference a gr gg gb = some ⟨gg, gr, gb⟩) ↔ a = 0)

/-! ## Framing -/

/-- LATCH (R140): `ceil_div(N, 32)` zero bytes are emitted, over what TERM may have written at their indices (log 11). The room
FRAME must have is the model's bound (log 18). -/
def Obligations.LatchEmitsZeroBytes : Prop :=
  ∀ (s : State), s.fault = 0 → s.frame.length ≤ 3 * s.n →
    exec .latch s = .next
      { s with frame := s.frame ++ List.replicate ((s.n + 31) / 32) 0,
               frameAhead := s.frameAhead.filter fun c => decide (s.frame.length + (s.n + 31) / 32 ≤ c.1),
               result := .nothing }

/-- The output bytes (R75): a gamma byte `1ggggggg` or a zero byte is emitted at the next FRAME index, if there is one, over what
TERM may have written there (log 11). That the rows are performed as `emit` is the model's reading (log 17). -/
def Obligations.OutputByteRowsEmit : Prop :=
  ∀ (s : State), s.fault = 0 → s.frame.length < (s.n + 31) / 32 + 3 * s.n →
    (∀ g : BitVec 7, exec (.byteGamma g) s = .next
      { s with frame := s.frame ++ [BitVec.ofNat 8 (128 + g.toNat)],
               frameAhead := s.frameAhead.filter fun c => decide (s.frame.length + 1 ≤ c.1), result := .nothing }) ∧
    exec .byteZero s = .next
      { s with frame := s.frame ++ [0],
               frameAhead := s.frameAhead.filter fun c => decide (s.frame.length + 1 ≤ c.1), result := .nothing }

/-- PIXEL (R141) on an in-range pixel: the three gamma bytes in the permutation `ORDER` selects, at the three frame indices from
`L + 3*i` on when the earlier bytes are there, over what TERM may have written at their indices (log 11). The room FRAME must have
is the model's bound (log 18). -/
def Obligations.PixelEmitsItsTriple : Prop :=
  ∀ (s : State) (pixels : List Pixel) (idx : Nat) (p : Pixel), s.fault = 0 → s.order.toNat ≤ 5 →
    pixelsFormable s.n s.build.F pixels = true → pixels[idx]? = some p → inRange s.build.F p →
    s.frame.length + 3 ≤ (s.n + 31) / 32 + 3 * s.n →
    ∃ (kr kg kb : Byte) (t : Triple),
      quantIndex s.build.F p.r = some kr ∧ quantIndex s.build.F p.g = some kg ∧ quantIndex s.build.F p.b = some kb ∧
      permute s.build.permTable s.order (gammaRead s kr) (gammaRead s kg) (gammaRead s kb) = some t ∧
      exec (.pixel idx pixels) s = .next
        { s with frame := s.frame ++ [t.b0, t.b1, t.b2],
                 frameAhead := s.frameAhead.filter fun c => decide (s.frame.length + 3 ≤ c.1), result := .nothing } ∧
      (s.frame.length = (s.n + 31) / 32 + 3 * idx →
        (s.frame ++ [t.b0, t.b1, t.b2])[(s.n + 31) / 32 + 3 * idx]? = some t.b0 ∧
        (s.frame ++ [t.b0, t.b1, t.b2])[(s.n + 31) / 32 + 3 * idx + 1]? = some t.b1 ∧
        (s.frame ++ [t.b0, t.b1, t.b2])[(s.n + 31) / 32 + 3 * idx + 2]? = some t.b2)

/-- PIXEL (R141, R192) on a pixel with an out-of-range channel: `RangeFault(i, c)` for the first in the order `R`, `G`, `B`, with
nothing emitted. -/
def Obligations.PixelFaultsAtItsFirstBadChannel : Prop :=
  ∀ (s : State) (pixels : List Pixel) (idx : Nat) (p : Pixel) (c : Channel), s.fault = 0 →
    pixelsFormable s.n s.build.F pixels = true → pixels[idx]? = some p → firstBadChannel s.build.F p = some c →
    exec (.pixel idx pixels) s = .next
      { s with fault := 1, faultPix := idx, faultCh := match c with | .r => 0 | .g => 1 | .b => 2, result := .nothing }

/-- TERM (R142): from every state, the bytes at the last pixel's three frame indices become zero and a read of any other index gives
what it gave; with the frame emitted to its end, those are its last three bytes; it does not run when `N = 0`. How a byte that is
written before its index is emitted is held is the model's (log 11). -/
def Obligations.TermZeroesTheLastTriple : Prop :=
  ∀ (s : State), s.fault = 0 →
    (1 ≤ s.n → ∃ t, exec .term s = .next t ∧
      t = { s with frame := t.frame, frameAhead := t.frameAhead, result := .nothing } ∧ t.frame.length = s.frame.length ∧
      ∀ i, t.frameAt i =
        if (s.n + 31) / 32 + 3 * (s.n - 1) ≤ i ∧ i < (s.n + 31) / 32 + 3 * s.n then some 0 else s.frameAt i) ∧
    (1 ≤ s.n → s.frame.length = (s.n + 31) / 32 + 3 * s.n →
      exec .term s = .next
        { s with frame := s.frame.take ((s.n + 31) / 32 + 3 * (s.n - 1)) ++ [0, 0, 0], result := .nothing }) ∧
    (s.n = 0 → exec .term s = .next { s with result := .nothing })

/-- LATCH, PIXEL and the output bytes stop by name where FRAME has no such index (R50; the stop is the model's, log 18). -/
def Obligations.FrameOperationsStopOutsideFrame : Prop :=
  ∀ (s : State), s.fault = 0 →
    (3 * s.n < s.frame.length → exec .latch s = .fault .frameOverrun) ∧
    ((s.n + 31) / 32 + 3 * s.n ≤ s.frame.length →
      exec .byteZero s = .fault .frameOverrun ∧ ∀ g, exec (.byteGamma g) s = .fault .frameOverrun) ∧
    (∀ (pixels : List Pixel) (idx : Nat) (p : Pixel), s.order.toNat ≤ 5 → pixelsFormable s.n s.build.F pixels = true →
      pixels[idx]? = some p → inRange s.build.F p → (s.n + 31) / 32 + 3 * s.n < s.frame.length + 3 →
      exec (.pixel idx pixels) s = .fault .frameOverrun)

/-- ENCODE (R143) on in-range pixels: `zeros(L) ++ triple(0) ++ ... ++ triple(N-2) ++ [0,0,0]`. -/
def Obligations.EncodeReturnsTheFrame : Prop :=
  ∀ (s : State) (pixels : List Pixel), s.fault = 0 → s.order.toNat ≤ 5 → 1 ≤ s.n →
    pixelsFormable s.n s.build.F pixels = true → (∀ p ∈ pixels, inRange s.build.F p) →
    ∃ f, f = List.replicate ((s.n + 31) / 32) 0 ++ pixels.dropLast.flatMap (tripleOf s) ++ [0, 0, 0] ∧
      exec (.encode pixels) s = .next { s with frame := [], frameAhead := [], frames := s.frames ++ [f], result := .frame f }

/-- Length (R144): every frame ENCODE returns has `ceil(N/32) + 3*N` bytes, whatever the pixels and `ORDER`. -/
def Obligations.EncodeLength : Prop :=
  ∀ (s t : State) (pixels : List Pixel) (f : List Byte), exec (.encode pixels) s = .next t → t.result = .frame f →
    f.length = (s.n + 31) / 32 + 3 * s.n

/-- One LED (R145): the frame is `00 00 00 00` whatever the colour, and the codes are still range-checked. That
FRAME is left empty and that returned frames are recorded is the model's (logs 11, 12). -/
def Obligations.OneLedFrameIsFourZeroBytes : Prop :=
  ∀ (s : State) (p : Pixel), s.fault = 0 → s.order.toNat ≤ 5 → s.n = 1 → pixelFits s.build.F p = true →
    (inRange s.build.F p →
      exec (.encode [p]) s = .next
        { s with frame := [], frameAhead := [], frames := s.frames ++ [[0, 0, 0, 0]], result := .frame [0, 0, 0, 0] }) ∧
    (∀ c, firstBadChannel s.build.F p = some c →
      exec (.encode [p]) s = .next
        { s with frame := [], frameAhead := [], fault := 1, faultPix := 0, faultCh := match c with | .r => 0 | .g => 1 | .b => 2,
                 result := .nothing })

/-- No LEDs (R147): with `N = 0` ENCODE of the empty sequence returns the empty frame and raises nothing. That FRAME
is left empty and that returned frames are recorded is the model's (logs 11, 12). -/
def Obligations.NoLedsGiveTheEmptyFrame : Prop :=
  ∀ (s : State), s.fault = 0 → s.n = 0 →
    exec (.encode []) s = .next { s with frame := [], frameAhead := [], frames := s.frames ++ [[]], result := .frame [] }

/-- The terminator invariant (R148): in every frame with `N >= 1`, with the ROM intact, exactly the first `L` and the last three
bytes are zero and every byte between has bit 7 set. -/
def Obligations.ZeroBytesAreLatchAndTerminator : Prop :=
  ∀ (s t : State) (pixels : List Pixel) (f : List Byte), s.gamma = gammaTable → 1 ≤ s.n →
    exec (.encode pixels) s = .next t → t.result = .frame f →
    ∀ (p : Nat) (b : Byte), f[p]? = some b →
      (b = 0 ↔ p < (s.n + 31) / 32 ∨ f.length - 3 ≤ p) ∧ (b ≠ 0 → b &&& 0x80 = 0x80)

/-- ENCODE and faults (R149, R198): when pixel `i` is the first with an out-of-range channel and `c` its first such channel, no
frame is returned and `RANGE(i, c)` is recorded; while `fault != 0` no frame is returned and nothing changes. That the raise
leaves FRAME empty is the model's (log 11). -/
def Obligations.EncodeFaultsAtTheFirstBadCode : Prop :=
  ∀ (s : State) (pixels : List Pixel), pixelsFormable s.n s.build.F pixels = true →
    (∀ (idx : Nat) (p : Pixel) (c : Channel), s.fault = 0 → s.order.toNat ≤ 5 → pixels[idx]? = some p →
      firstBadChannel s.build.F p = some c → (∀ j p', j < idx → pixels[j]? = some p' → inRange s.build.F p') →
      exec (.encode pixels) s = .next
        { s with frame := [], frameAhead := [], fault := 1, faultPix := idx, faultCh := match c with | .r => 0 | .g => 1 | .b => 2,
                 result := .nothing }) ∧
    (s.fault ≠ 0 → exec (.encode pixels) s = .next { s with result := .nothing })

/-- Purity (R146): what ENCODE returns is the same in any two states that agree on the straps, the ROM, the build and `fault`; it
changes no state of R20 but the three fault fields when it raises; and for in-range pixels and a legal `ORDER` it returns a
frame. -/
def Obligations.EncodeIsPureAndTotal : Prop :=
  (∀ (s s' t t' : State) (pixels : List Pixel), s.n = s'.n → s.order = s'.order → s.gamma = s'.gamma → s.build = s'.build →
    s.fault = s'.fault → exec (.encode pixels) s = .next t → exec (.encode pixels) s' = .next t' → t.result = t'.result) ∧
  (∀ (s t : State) (pixels : List Pixel), exec (.encode pixels) s = .next t →
    t.n = s.n ∧ t.order = s.order ∧ t.gamma = s.gamma ∧ t.lastPixels = s.lastPixels ∧ t.history = s.history ∧
    t.build = s.build ∧ t.input = s.input ∧ t.freeCount = s.freeCount ∧
    (t.fault = s.fault → t.faultPix = s.faultPix ∧ t.faultCh = s.faultCh)) ∧
  (∀ (s : State) (pixels : List Pixel), s.fault = 0 → s.order.toNat ≤ 5 → pixelsFormable s.n s.build.F pixels = true →
    (∀ p ∈ pixels, inRange s.build.F p) → ∃ t f, exec (.encode pixels) s = .next t ∧ t.result = .frame f ∧ t.fault = 0)

/-- The fourth channel (R110): two sequences of formable pixels that differ in `W` codes only are encoded alike. -/
def Obligations.WhiteChannelNeverReachesTheFrame : Prop :=
  ∀ (s : State) (ps qs : List Pixel), pixelsFormable s.n s.build.F ps = true → pixelsFormable s.n s.build.F qs = true →
    ps.map (fun p => (p.r, p.g, p.b)) = qs.map (fun p => (p.r, p.g, p.b)) →
    exec (.encode ps) s = exec (.encode qs) s

/-- The last pixel's colour is discarded (R230, R142): two in-range sequences that differ in the last pixel only give the same
frame. -/
def Obligations.LastColourIsDiscarded : Prop :=
  ∀ (s : State) (ps : List Pixel) (a b : Pixel), s.fault = 0 → s.order.toNat ≤ 5 →
    pixelsFormable s.n s.build.F (ps ++ [a]) = true → pixelsFormable s.n s.build.F (ps ++ [b]) = true →
    (∀ p ∈ ps, inRange s.build.F p) → inRange s.build.F a → inRange s.build.F b →
    exec (.encode (ps ++ [a])) s = exec (.encode (ps ++ [b])) s

/-- ENCODE is its steps (R143, R22, R151): LATCH, PIXEL for each index in order, TERM, performed one by one from an empty FRAME,
leave in FRAME the frame that ENCODE returns, and raise the fault that ENCODE raises. That the steps act on a FRAME held in State
is the model's (log 11), and that the steps after a raise are idle is the model's reading (log 13). -/
def Obligations.EncodeRefinesItsSteps : Prop :=
  ∀ (s : State) (pixels : List Pixel), s.fault = 0 → s.frame = [] → pixelsFormable s.n s.build.F pixels = true →
    ∃ t u, execAll (encodeSteps s.n pixels) s = .next t ∧ exec (.encode pixels) s = .next u ∧
      t.fault = u.fault ∧ t.faultPix = u.faultPix ∧ t.faultCh = u.faultCh ∧
      (u.fault = 0 → u.result = .frame t.frame)

/-! ## The transmission scheduler -/

/-- SUBMIT.NOW (R161, R160): an accepted sequence becomes `last_pixels`, and its frame, the one ENCODE returns, is dispatched in
chunks with `minclock = 0`. -/
def Obligations.SubmitNowDispatchesTheFrame : Prop :=
  ∀ (s : State) (pixels : List Pixel), s.fault = 0 → s.order.toNat ≤ 5 → pixelsFormable s.n s.build.F pixels = true →
    (∀ p ∈ pixels, inRange s.build.F p) → s.lastPixels ≠ some pixels →
    ∃ f u, exec (.encode pixels) s = .next u ∧ u.result = .frame f ∧
      exec (.submitNow pixels) s = .next
        { s with lastPixels := some pixels, frame := [], frameAhead := [],
                 history := s.history ++ (chunksOf f).map (fun c => ⟨c, 0, Config.bgReqclock⟩), result := .nothing }

/-- SUBMIT.AT (R162, R160): as SUBMIT.NOW with `minclock = T2C(target)`. -/
def Obligations.SubmitAtDispatchesTheFrame : Prop :=
  ∀ (s : State) (pixels : List Pixel) (target : Time), s.fault = 0 → s.order.toNat ≤ 5 →
    pixelsFormable s.n s.build.F pixels = true → (∀ p ∈ pixels, inRange s.build.F p) → s.lastPixels ≠ some pixels →
    ∃ f u, exec (.encode pixels) s = .next u ∧ u.result = .frame f ∧
      exec (.submitAt pixels target) s = .next
        { s with lastPixels := some pixels, frame := [], frameAhead := [],
                 history := s.history ++ (chunksOf f).map (fun c => ⟨c, Config.t2c target, Config.bgReqclock⟩),
                 result := .nothing }

/-- SUPPRESS (R163): true exactly when `last_pixels` is the sequence, all four codes of every pixel; and then a SUBMIT does
nothing at all. -/
def Obligations.SuppressedSubmitDoesNothing : Prop :=
  ∀ (s : State) (pixels : List Pixel), s.fault = 0 → pixelsFormable s.n s.build.F pixels = true →
    (∃ b : Bool, (b = true ↔ s.lastPixels = some pixels) ∧
      exec (.suppress pixels) s = .next { s with result := .truth b }) ∧
    (s.lastPixels = some pixels → ∀ i, isSubmitOf i pixels → exec i s = .next { s with result := .nothing })

/-- A SUBMIT whose ENCODE faults (R160, R164, R199): `last_pixels` has been written, the cause and position are recorded, nothing
is dispatched. -/
def Obligations.FaultingSubmitWritesOnlyTheCache : Prop :=
  ∀ (s : State) (pixels : List Pixel) (idx : Nat) (p : Pixel) (c : Channel), s.fault = 0 → s.order.toNat ≤ 5 →
    pixelsFormable s.n s.build.F pixels = true → s.lastPixels ≠ some pixels → pixels[idx]? = some p →
    firstBadChannel s.build.F p = some c → (∀ j p', j < idx → pixels[j]? = some p' → inRange s.build.F p') →
    ∀ i, isSubmitOf i pixels → exec i s = .next
      { s with lastPixels := some pixels, frame := [], frameAhead := [], fault := 1, faultPix := idx,
               faultCh := match c with | .r => 0 | .g => 1 | .b => 2, result := .nothing }

/-- SUBMIT in the faulted state (R173): it returns at once. -/
def Obligations.FaultedSubmitReturnsAtOnce : Prop :=
  ∀ (s : State) (pixels : List Pixel), s.fault ≠ 0 → pixelsFormable s.n s.build.F pixels = true →
    ∀ i, isSubmitOf i pixels → exec i s = .next { s with result := .nothing }

/-- MINCLK (R165): 0 without a target, `T2C(target)` with one. -/
def Obligations.MinclkResolvesTheTarget : Prop :=
  ∀ (s : State) (target : Time), s.fault = 0 →
    exec (.minclk false target) s = .next { s with result := .clock 0 } ∧
    exec (.minclk true target) s = .next { s with result := .clock (Config.t2c target) }

/-- CHUNK (R166, R167): the chunks put together are the frame; each has 1 to 20 bytes; only the last may have fewer than 20; there
are `ceil_div(n, 20)`. -/
def Obligations.ChunksReconstructTheFrame : Prop :=
  ∀ (s : State) (f : List Byte), s.fault = 0 →
    ∃ cs, exec (.chunk f) s = .next { s with result := .chunks cs } ∧ cs.flatten = f ∧
      (∀ c ∈ cs, 1 ≤ c.length ∧ c.length ≤ 20) ∧ (∀ c ∈ cs.dropLast, c.length = 20) ∧
      cs.length = (f.length + 19) / 20

/-- DISPATCH (R168, R172): one dispatch with the chunk, `minclock` and `BG_REQCLOCK` is appended to `history`. That a DISPATCH
performed on its own takes a chunk of bytes of any value, while the spec dispatches frame bytes (R18, R81), is the model's choice
(log 25). -/
def Obligations.DispatchAppendsToHistory : Prop :=
  ∀ (s : State) (c : List Byte) (mc : Clock), s.fault = 0 → 1 ≤ c.length → c.length ≤ 20 →
    exec (.dispatch c mc) s = .next
      { s with history := s.history ++ [⟨c, mc, Config.bgReqclock⟩], result := .nothing }

/-- One frame a change (R174, R169): over any run of SUBMITs of either form, all of in-range sequences, the dispatches added are, in
order, those of the frames of the submissions whose pixels differ from those of the last one not suppressed, each with its own
`minclock`. -/
def Obligations.RunOfSubmitsDispatchesEachChangeOnce : Prop :=
  ∀ (run : List Submission) (s : State), s.fault = 0 → s.order.toNat ≤ 5 →
    (∀ x ∈ run, pixelsFormable s.n s.build.F x.pixels = true ∧ ∀ p ∈ x.pixels, inRange s.build.F p) →
    ∃ t, execAll (run.map Submission.instr) s = .next t ∧ t.fault = 0 ∧
      t.history = s.history ++
        (transmitted s.lastPixels run).flatMap (fun x => dispatchesOf (frameOf s x.pixels) x.minclock)

/-- A repeat is suppressed whatever its target (R174, R231, R229): after any SUBMIT that ends with `fault = 0`, a SUBMIT of the
same pixels changes nothing. -/
def Obligations.RepeatedSubmitIsSuppressed : Prop :=
  ∀ (s t : State) (pixels : List Pixel) (i j : Instr), isSubmitOf i pixels → isSubmitOf j pixels → exec i s = .next t →
    t.fault = 0 → exec j t = .next { t with result := .nothing }

/-- The first SUBMIT after RESET transmits (R224), in either form: `history` then holds its whole frame and nothing else, whatever
it and `last_pixels` held before. -/
def Obligations.FirstSubmitAfterResetTransmits : Prop :=
  ∀ (s : State) (n : Nat) (order : BitVec 3) (pixels : List Pixel) (i : Instr), order.toNat ≤ 5 →
    pixelsFormable n s.build.F pixels = true → (∀ p ∈ pixels, inRange s.build.F p) → isSubmitOf i pixels →
    ∃ t, execAll [.reset n order, i] s = .next t ∧ t.lastPixels = some pixels ∧ t.fault = 0 ∧
      (t.history.map (·.bytes)).flatten = frameOf t pixels ∧
      (frameOf t pixels).length = (if n = 0 then 0 else (n + 31) / 32 + 3 * n)

/-- The dispatches of a SUBMIT, put together in order, are the frame (R167, R170): a frame is dispatched whole or not at all. -/
def Obligations.FrameIsDispatchedWholeOrNotAtAll : Prop :=
  ∀ (s t : State) (pixels : List Pixel) (i : Instr), isSubmitOf i pixels → exec i s = .next t →
    t.history = s.history ∨
      ∃ ds u f, t.history = s.history ++ ds ∧ exec (.encode pixels) s = .next u ∧ u.result = .frame f ∧
        (ds.map (·.bytes)).flatten = f

/-! ## Rules about every operation -/

/-- The straps and the ROM (R24, R26, R63, R234): no operation but the reset event writes `N`, `ORDER` or `GAMMA`, and none writes
the build parameters. -/
def Obligations.OnlyResetWritesTheConfiguration : Prop :=
  ∀ (s t : State) (i : Instr), exec i s = .next t →
    t.build = s.build ∧ (isReset i = false → t.n = s.n ∧ t.order = s.order ∧ t.gamma = s.gamma)

/-- The dispatch history (R31, R20) is append only between resets, and only SUBMIT and DISPATCH append. -/
def Obligations.HistoryIsAppendOnly : Prop :=
  ∀ (s t : State) (i : Instr), exec i s = .next t → isReset i = false →
    (∃ ds, t.history = s.history ++ ds) ∧
    ((∀ pixels, ¬ isSubmitOf i pixels) → (∀ c mc, i ≠ .dispatch c mc) → t.history = s.history)

/-- The cache (R27): it is written only by SUBMIT, with the sequence submitted; only the reset event returns it to `none`
(R64). -/
def Obligations.OnlySubmitWritesTheCache : Prop :=
  ∀ (s t : State) (i : Instr), exec i s = .next t → isReset i = false →
    ((∀ pixels, ¬ isSubmitOf i pixels) → t.lastPixels = s.lastPixels) ∧
    (∀ pixels, isSubmitOf i pixels → s.fault = 0 → t.lastPixels = some pixels)

/-- Every step keeps the invariant `State.Inv`: the ROM intact, the cause and its information legal (with `N = 0`, where no
position is below `N`, `fault_pix` is not bounded, log 26), a reserved `ORDER` only in the faulted state, the cache of `N` formable
pixels, FRAME in its canonical form, within its bound and free of bytes `0x01` to `0x7F`, every dispatch of 1 to 20 bytes with the
background clock. -/
def Obligations.StepKeepsInvariant : Prop :=
  ∀ (s t : State), s.Inv → step s = .next t → t.Inv

/-- The state after reset meets the invariant, and holds what R32 gives: `last_pixels = none`, `fault = 0`, `history` empty, the
literal table, no frame; it meets the invariant of the host's operations too. The straps and the default build are the model's
(logs 1, 7). -/
def Obligations.ResetMeetsInvariant : Prop :=
  State.reset.Inv ∧ State.reset.lastPixels = none ∧ State.reset.fault = 0 ∧ State.reset.history = [] ∧
    State.reset.gamma = gammaTable ∧ State.reset.frame = [] ∧ State.reset.frameAhead = [] ∧ State.reset.HostInv

/-- A step performs the next transaction (R6, R59; the queue is the model's, log 8): the operation its words decode to, on the state
that waits with the rest; undecodable words are refused; with none presented LFE keeps all its state (R208). -/
def Obligations.StepPerformsTheDecodedOperation : Prop :=
  (∀ s : State, s.input = [] → step s = .next s) ∧
  (∀ (s : State) (x : Txn) (rest : List Txn) (i : Instr), s.input = x :: rest → decode s.build.F x = .ok i →
    step s = exec i { s with input := rest }) ∧
  (∀ (s : State) (x : Txn) (rest : List Txn) (e : DecodeError), s.input = x :: rest → decode s.build.F x = .error e →
    step s = .refused (.undecodable e))

/-! ## Encoding -/

/-- Decoding the encoding of a well-formed operation gives it back, with every operand at every value (the operand layout is the
model's, log 9). -/
def Obligations.DecodeInvertsEncode : Prop :=
  ∀ (n F : Nat) (i : Instr), i.wellFormed n F = true → decode F (encode F i) = .ok i

/-- Whatever words decode, the operation they decode to encodes to words that decode to it. -/
def Obligations.DecodedOperationsReencode : Prop :=
  ∀ (F : Nat) (x : Txn) (i : Instr), decode F x = .ok i → decode F (encode F i) = .ok i

/-- The pixel word (R72): of its `4*(F+1)` bits `[F:0]` are `R`, `[2F+1:F+1]` `G`, `[3F+2:2F+2]` `B` and `[4F+3:3F+3]` `W`, and
no code has a bit above `F`. That the decoder takes a list of words and reads words of that width as their pixels in order is the
model's (log 9), and that it refuses a sequence with a wider word is the model's reading (log 19). -/
def Obligations.PixelWordFields : Prop :=
  (∀ (F v k : Nat), k ≤ F →
    (unpackPixel F v).r.testBit k = v.testBit k ∧
    (unpackPixel F v).g.testBit k = v.testBit (F + 1 + k) ∧
    (unpackPixel F v).b.testBit k = v.testBit (2 * F + 2 + k) ∧
    (unpackPixel F v).w.testBit k = v.testBit (3 * F + 3 + k)) ∧
  (∀ (F v k : Nat), F < k →
    (unpackPixel F v).r.testBit k = false ∧ (unpackPixel F v).g.testBit k = false ∧
    (unpackPixel F v).b.testBit k = false ∧ (unpackPixel F v).w.testBit k = false) ∧
  (∀ (F : Nat) (vs : List Nat), (∀ v ∈ vs, v < 2 ^ (4 * (F + 1))) → readPixels F vs = .ok (vs.map (unpackPixel F))) ∧
  (∀ (F : Nat) (vs : List Nat), (∃ v ∈ vs, 2 ^ (4 * (F + 1)) ≤ v) → readPixels F vs = .error .operandRange)

/-- The codes of the opcode table, read by the decoder (R73, R74, R75, R191): the eight colour-order codes, the two submit flags,
bytes of the three classes and the four causes; the worked pixel words of programs P3 and P1. The layout of the words after a code
is the model's (log 9). -/
def Obligations.DecoderReadsTheTablesCodes : Prop :=
  decode 16 ⟨.orderCode, [0b000, 1, 2, 3]⟩ = .ok (.permRgb 1 2 3) ∧
  decode 16 ⟨.orderCode, [0b001, 1, 2, 3]⟩ = .ok (.permRbg 1 2 3) ∧
  decode 16 ⟨.orderCode, [0b010, 1, 2, 3]⟩ = .ok (.permGrb 1 2 3) ∧
  decode 16 ⟨.orderCode, [0b011, 1, 2, 3]⟩ = .ok (.permGbr 1 2 3) ∧
  decode 16 ⟨.orderCode, [0b100, 1, 2, 3]⟩ = .ok (.permBrg 1 2 3) ∧
  decode 16 ⟨.orderCode, [0b101, 1, 2, 3]⟩ = .ok (.permBgr 1 2 3) ∧
  decode 16 ⟨.orderCode, [0b110, 0, 0, 0]⟩ = .ok (.orderReserved 0) ∧
  decode 16 ⟨.orderCode, [0b111, 0, 0, 0]⟩ = .ok (.orderReserved 1) ∧
  decode 16 ⟨.outByte, [0x97]⟩ = .ok (.byteGamma 0x17) ∧
  decode 16 ⟨.outByte, [0x00]⟩ = .ok .byteZero ∧
  decode 16 ⟨.outByte, [0x7F]⟩ = .ok (.byteNever 0x7F) ∧
  decode 16 ⟨.submitFlag, [0, 5, 0x00000000200020000]⟩ = .ok (.submitNow [⟨0, 0x10001, 0, 0⟩]) ∧
  decode 16 ⟨.submitFlag, [1, 5, 0x00004000000000000]⟩ = .ok (.submitAt [⟨0, 0, 0x10000, 0⟩] ⟨5⟩) ∧
  decode 16 ⟨.faultCause, [0b00, 0, 0]⟩ = .ok .faultNone ∧
  decode 16 ⟨.faultCause, [0b01, 3, 2]⟩ = .ok (.faultRange 3 .b) ∧
  decode 16 ⟨.faultCause, [0b10, 0, 0]⟩ = .ok .faultCfg ∧
  decode 16 ⟨.faultCause, [0b11, 0, 0]⟩ = .ok .faultReserved

/-- PIXEL at an index the sequence does not have: R141 gives it an index below `N`, and R50 no pixel there. The model lets it run on
a pixel of four free codes of `F+1` bits (DESIGN CHOICE, log 26): its three gamma bytes are emitted in the permutation `ORDER`
selects, or stop at the end of FRAME (log 18), or its first out-of-range channel is raised for, at a position below `N` if any
is. -/
def Obligations.PixelOutsideTheSequenceRunsOnAFreePixel : Prop :=
  ∀ (s : State) (pixels : List Pixel) (idx : Nat), s.fault = 0 → s.order.toNat ≤ 5 →
    pixelsFormable s.n s.build.F pixels = true → s.n ≤ idx →
    ∃ p : Pixel, pixelFits s.build.F p = true ∧
      (inRange s.build.F p → ∃ (kr kg kb : Byte) (t : Triple),
        quantIndex s.build.F p.r = some kr ∧ quantIndex s.build.F p.g = some kg ∧ quantIndex s.build.F p.b = some kb ∧
        permute s.build.permTable s.order (gammaRead s kr) (gammaRead s kg) (gammaRead s kb) = some t ∧
        (s.frame.length + 3 ≤ (s.n + 31) / 32 + 3 * s.n →
          exec (.pixel idx pixels) s = .next
            { s with frame := s.frame ++ [t.b0, t.b1, t.b2],
                     frameAhead := s.frameAhead.filter fun c => decide (s.frame.length + 3 ≤ c.1), result := .nothing,
                     freeCount := s.freeCount + 1 }) ∧
        ((s.n + 31) / 32 + 3 * s.n < s.frame.length + 3 → exec (.pixel idx pixels) s = .fault .frameOverrun)) ∧
      (∀ c, firstBadChannel s.build.F p = some c → ∃ k, (0 < s.n → k < s.n) ∧
        exec (.pixel idx pixels) s = .next
          { s with fault := 1, faultPix := k, faultCh := match c with | .r => 0 | .g => 1 | .b => 2, result := .nothing,
                   freeCount := s.freeCount + 2 })

/-- QUANT of a code above `2^F` under an index not below `N`: R103 has it raise whatever the index, and R192 and R20 cannot both hold
of the position. The position reported is a free value of the model's, below `N` if any is (DESIGN CHOICE, log 26). -/
def Obligations.QuantOutsideTheSequenceReportsAFreePosition : Prop :=
  ∀ (s : State) (q idx : Nat) (c : Channel), s.fault = 0 → q < 2 ^ (s.build.F + 1) → 2 ^ s.build.F < q → s.n ≤ idx →
    ∃ k, (0 < s.n → k < s.n) ∧
      exec (.quant q idx c) s = .next
        { s with fault := 1, faultPix := k, faultCh := match c with | .r => 0 | .g => 1 | .b => 2, result := .nothing,
                 freeCount := s.freeCount + 1 }

/-! ## The host's three operations -/

/-- "The host reaches it through exactly three operations: RESET, `submit` and, for FE used alone, `encode`" (R176): the operations
`hostOperation` names are those and no other; each, when the port can carry it, answers a next state from every state, so a host's
transaction never stops the machine; and each that the port cannot carry is refused (R74, R150; log 19). -/
def Obligations.HostReachesLfeThroughThreeOperations : Prop :=
  (∀ i : Instr, hostOperation i = true ↔
    (∃ n order, i = .reset n order) ∨ (∃ pixels, isSubmitOf i pixels) ∨ (∃ pixels, i = .encode pixels)) ∧
  (∀ (s : State) (i : Instr), hostOperation i = true →
    (i.wellFormed s.n s.build.F = true → ∃ t, exec i s = .next t) ∧
    (i.wellFormed s.n s.build.F = false → ∃ r, exec i s = .refused r))

/-- While the host reaches LFE through its three operations only (R176), a step never faults, no FRAME byte is held between
transactions (R32, R29), every byte in `history` is of the two classes (R81), and `fault_pix` after a RANGE fault is below `N`
(R20). That the transactions wait in State is the model's (log 8). -/
def Obligations.HostOperationsKeepTheirInvariant : Prop :=
  ∀ (s : State), s.Inv → s.HostInv → (∀ r, step s ≠ .fault r) ∧ ∀ t, step s = .next t → t.Inv ∧ t.HostInv
end

