-- ==== Sys2Proof/Laws/Arith.lean ====
section
/-! SUPPORT. The small lemmas of the arithmetic helpers: ceil_div, the rounding, the widths and the pixel word. -/

namespace Sys2Proof.Machine

theorem ceilDiv_32 (n : Nat) : ceilDiv n 32 = (n + 31) / 32 := by simp [ceilDiv]

theorem ceilDiv_20 (n : Nat) : ceilDiv n 20 = (n + 19) / 20 := by simp [ceilDiv]

theorem latchLen_eq (n : Nat) : latchLen n = (n + 31) / 32 := by simp [latchLen, ceilDiv]

theorem frameLen_eq (n : Nat) : frameLen n = (n + 31) / 32 + 3 * n := by simp [frameLen, latchLen_eq]

/-- What `rne` of `a / b` is, from the floor quotient and its remainder. -/
theorem rne_cases (a b : Nat) (hb : 0 < b) :
    ∃ q r, a = q * b + r ∧ r < b ∧
      (2 * r < b ∧ rne a b = q ∨ b < 2 * r ∧ rne a b = q + 1 ∨
        2 * r = b ∧ (q % 2 = 0 ∧ rne a b = q ∨ q % 2 = 1 ∧ rne a b = q + 1)) := by
  refine ⟨a / b, a % b, ?_, Nat.mod_lt a hb, ?_⟩
  · rw [Nat.mul_comm]; exact (Nat.div_add_mod a b).symm
  · unfold rne
    split
    · exact .inl ⟨‹_›, rfl⟩
    · split
      · exact .inr (.inl ⟨‹_›, rfl⟩)
      · split
        · exact .inr (.inr ⟨by omega, .inl ⟨‹_›, rfl⟩⟩)
        · exact .inr (.inr ⟨by omega, .inr ⟨by omega, rfl⟩⟩)

/-- An integer within half of `a / b`, strictly, is its `rne`. -/
theorem rne_eq_of_near {a b k : Nat} (hb : 0 < b) (h1 : 2 * (k * b) < 2 * a + b) (h2 : 2 * a < 2 * (k * b) + b) :
    rne a b = k := by
  obtain ⟨q, r, ha, hr, h⟩ := rne_cases a b hb
  have hkq : k = q ∨ k = q + 1 := by
    have h3 : k < q + 2 := by
      by_contra hc
      have : (q + 2) * b ≤ k * b := Nat.mul_le_mul_right b (by omega)
      have e : (q + 2) * b = q * b + 2 * b := by ring
      omega
    have h4 : q ≤ k := by
      by_contra hc
      have : (k + 1) * b ≤ q * b := Nat.mul_le_mul_right b (by omega)
      have e : (k + 1) * b = k * b + b := by ring
      omega
    omega
  rcases hkq with rfl | rfl
  · rcases h with h | h | ⟨h, h' | h'⟩ <;> omega
  · have e : (q + 1) * b = q * b + b := by ring
    rcases h with h | h | ⟨h, h' | h'⟩ <;> omega

/-- The index of an in-range code is at most 255. -/
theorem rne_index_le (F q : Nat) (h : q ≤ 2 ^ F) : rne (255 * q) (2 ^ F) ≤ 255 := by
  have hb : 0 < 2 ^ F := by positivity
  obtain ⟨k, r, ha, hr, hk⟩ := rne_cases (255 * q) (2 ^ F) hb
  have h1 : k * 2 ^ F ≤ 255 * 2 ^ F := by omega
  have h2 : k ≤ 255 := Nat.le_of_mul_le_mul_right h1 hb
  by_cases hk255 : k = 255
  · subst hk255
    have : r = 0 := by omega
    rcases hk with h | h | ⟨h, h' | h'⟩ <;> omega
  · rcases hk with h | h | ⟨h, h' | h'⟩ <;> omega

/-- QUANT of an in-range code gives an index. -/
theorem quantIndex_inRange {F q : Nat} (h : q ≤ 2 ^ F) :
    quantIndex F q = some (BitVec.ofNat 8 (rne (255 * q) (2 ^ F))) := by
  simp [quantIndex, Nat.not_lt.mpr h]

/-- QUANT of a code above `2^F` gives none. -/
theorem quantIndex_above {F q : Nat} (h : 2 ^ F < q) : quantIndex F q = none := by
  simp [quantIndex, h]

/-- Every code of a pixel word read back fits. -/
theorem unpackPixel_fits (F v : Nat) : pixelFits F (unpackPixel F v) = true := by
  simp [pixelFits, codeFits, unpackPixel, Nat.mod_lt]

/-- Packing then unpacking a pixel of fitting codes gives it back. -/
theorem unpack_pack {F : Nat} {p : Pixel} (h : pixelFits F p = true) : unpackPixel F (packPixel F p) = p := by
  obtain ⟨r, g, b, w⟩ := p
  simp only [pixelFits, codeFits, Bool.and_eq_true, decide_eq_true_eq] at h
  obtain ⟨⟨⟨hr, hg⟩, hb⟩, hw⟩ := h
  have hp : 0 < 2 ^ (F + 1) := by positivity
  simp only [unpackPixel, packPixel, Nat.add_mul_mod_self_left, Nat.add_mul_div_left _ _ hp, Nat.mod_eq_of_lt hr,
    Nat.div_eq_of_lt hr, Nat.zero_add, Nat.mod_eq_of_lt hg, Nat.div_eq_of_lt hg, Nat.mod_eq_of_lt hb,
    Nat.div_eq_of_lt hb, Nat.mod_eq_of_lt hw]

/-- A packed pixel of fitting codes is a pixel word. -/
theorem packPixel_fits {F : Nat} {p : Pixel} (h : pixelFits F p = true) : pixelWordFits F (packPixel F p) = true := by
  obtain ⟨r, g, b, w⟩ := p
  simp only [pixelFits, codeFits, Bool.and_eq_true, decide_eq_true_eq] at h
  obtain ⟨⟨⟨hr, hg⟩, hb⟩, hw⟩ := h
  have e : 2 ^ (4 * (F + 1)) = 2 ^ (F + 1) * (2 ^ (F + 1) * (2 ^ (F + 1) * 2 ^ (F + 1))) := by ring
  simp only [pixelWordFits, packPixel, decide_eq_true_eq, e]
  generalize 2 ^ (F + 1) = m at *
  have step : ∀ {x y z : Nat}, x < m → y < z → x + m * y < m * z := by
    intro x y z hx hy
    have : m * (y + 1) ≤ m * z := Nat.mul_le_mul_left m hy
    have e2 : m * (y + 1) = m * y + m := by ring
    omega
  exact step hr (step hg (step hb hw))

end Sys2Proof.Machine
end

