-- ==== Sys2Proof/Laws/Decode.lean ====
section
/-! SUPPORT. The word readers of the decoder give back what the encoder writes. -/

namespace Sys2Proof

open Machine

theorem readByte_toNat (b : Byte) : readByte b.toNat = .ok b := by
  simp [readByte, b.isLt]

theorem readBytes_byteWords : ∀ bs : List Byte, readBytes (byteWords bs) = .ok bs
  | [] => rfl
  | b :: bs => by
    have ih := readBytes_byteWords bs
    simp only [byteWords] at ih
    simp [byteWords, readBytes, readByte_toNat, ih]

theorem readPixels_pixelWords {F : Nat} : ∀ {ps : List Pixel}, (∀ p ∈ ps, pixelFits F p = true) →
    readPixels F (pixelWords F ps) = .ok ps
  | [], _ => rfl
  | p :: ps, h => by
    have ih := readPixels_pixelWords (F := F) (ps := ps) (fun q hq => h q (by simp [hq]))
    have hp := h p (by simp)
    simp only [pixelWords] at ih
    simp [pixelWords, readPixels, packPixel_fits hp, unpack_pack hp, ih]

/-- Every pixel the decoder reads has codes of `F+1` bits. -/
theorem readPixels_fits {F : Nat} : ∀ {ws : List Nat} {ps : List Pixel}, readPixels F ws = .ok ps →
    ∀ p ∈ ps, pixelFits F p = true
  | [], ps, h => by cases h; simp
  | w :: ws, ps, h => by
    unfold readPixels at h
    split at h
    · split at h
      · cases h
      · cases h
        rename_i qs hq
        simpa [unpackPixel_fits] using readPixels_fits hq
    · cases h

theorem readChannel_code (c : Channel) : readChannel (channelCode c).toNat = .ok c := by cases c <;> rfl

theorem readFlag_toNat (h : Bool) : readFlag h.toNat = .ok h := by cases h <;> rfl

end Sys2Proof
end

