-- ==== Sys2Proof/Laws/State.lean ====
section
/-! SUPPORT. One lemma per field per update of the state, each true by rfl (a store of FRAME by its two cases), so that no proof unfolds a record update. -/

namespace Sys2Proof.Machine

variable (s : State)

@[simp] theorem State.setResult_n (r : Result) : (s.setResult r).n = s.n := rfl
@[simp] theorem State.setResult_order (r : Result) : (s.setResult r).order = s.order := rfl
@[simp] theorem State.setResult_gamma (r : Result) : (s.setResult r).gamma = s.gamma := rfl
@[simp] theorem State.setResult_lastPixels (r : Result) : (s.setResult r).lastPixels = s.lastPixels := rfl
@[simp] theorem State.setResult_fault (r : Result) : (s.setResult r).fault = s.fault := rfl
@[simp] theorem State.setResult_faultPix (r : Result) : (s.setResult r).faultPix = s.faultPix := rfl
@[simp] theorem State.setResult_faultCh (r : Result) : (s.setResult r).faultCh = s.faultCh := rfl
@[simp] theorem State.setResult_history (r : Result) : (s.setResult r).history = s.history := rfl
@[simp] theorem State.setResult_frame (r : Result) : (s.setResult r).frame = s.frame := rfl
@[simp] theorem State.setResult_build (r : Result) : (s.setResult r).build = s.build := rfl
@[simp] theorem State.setResult_frameAhead (r : Result) : (s.setResult r).frameAhead = s.frameAhead := rfl
@[simp] theorem State.setResult_input (r : Result) : (s.setResult r).input = s.input := rfl
@[simp] theorem State.setResult_result (r : Result) : (s.setResult r).result = r := rfl
@[simp] theorem State.setResult_frames (r : Result) : (s.setResult r).frames = s.frames := rfl
@[simp] theorem State.setResult_freeCount (r : Result) : (s.setResult r).freeCount = s.freeCount := rfl

@[simp] theorem State.clearFrame_n : s.clearFrame.n = s.n := rfl
@[simp] theorem State.clearFrame_order : s.clearFrame.order = s.order := rfl
@[simp] theorem State.clearFrame_gamma : s.clearFrame.gamma = s.gamma := rfl
@[simp] theorem State.clearFrame_lastPixels : s.clearFrame.lastPixels = s.lastPixels := rfl
@[simp] theorem State.clearFrame_fault : s.clearFrame.fault = s.fault := rfl
@[simp] theorem State.clearFrame_faultPix : s.clearFrame.faultPix = s.faultPix := rfl
@[simp] theorem State.clearFrame_faultCh : s.clearFrame.faultCh = s.faultCh := rfl
@[simp] theorem State.clearFrame_history : s.clearFrame.history = s.history := rfl
@[simp] theorem State.clearFrame_build : s.clearFrame.build = s.build := rfl
@[simp] theorem State.clearFrame_input : s.clearFrame.input = s.input := rfl
@[simp] theorem State.clearFrame_result : s.clearFrame.result = s.result := rfl
@[simp] theorem State.clearFrame_frames : s.clearFrame.frames = s.frames := rfl
@[simp] theorem State.clearFrame_freeCount : s.clearFrame.freeCount = s.freeCount := rfl
@[simp] theorem State.clearFrame_frame : s.clearFrame.frame = [] := rfl
@[simp] theorem State.clearFrame_frameAhead : s.clearFrame.frameAhead = [] := rfl

@[simp] theorem State.pushBytes_n (bs : List Byte) : (s.pushBytes bs).n = s.n := rfl
@[simp] theorem State.pushBytes_order (bs : List Byte) : (s.pushBytes bs).order = s.order := rfl
@[simp] theorem State.pushBytes_gamma (bs : List Byte) : (s.pushBytes bs).gamma = s.gamma := rfl
@[simp] theorem State.pushBytes_lastPixels (bs : List Byte) : (s.pushBytes bs).lastPixels = s.lastPixels := rfl
@[simp] theorem State.pushBytes_fault (bs : List Byte) : (s.pushBytes bs).fault = s.fault := rfl
@[simp] theorem State.pushBytes_faultPix (bs : List Byte) : (s.pushBytes bs).faultPix = s.faultPix := rfl
@[simp] theorem State.pushBytes_faultCh (bs : List Byte) : (s.pushBytes bs).faultCh = s.faultCh := rfl
@[simp] theorem State.pushBytes_history (bs : List Byte) : (s.pushBytes bs).history = s.history := rfl
@[simp] theorem State.pushBytes_build (bs : List Byte) : (s.pushBytes bs).build = s.build := rfl
@[simp] theorem State.pushBytes_input (bs : List Byte) : (s.pushBytes bs).input = s.input := rfl
@[simp] theorem State.pushBytes_result (bs : List Byte) : (s.pushBytes bs).result = s.result := rfl
@[simp] theorem State.pushBytes_frames (bs : List Byte) : (s.pushBytes bs).frames = s.frames := rfl
@[simp] theorem State.pushBytes_freeCount (bs : List Byte) : (s.pushBytes bs).freeCount = s.freeCount := rfl
@[simp] theorem State.pushBytes_frame (bs : List Byte) : (s.pushBytes bs).frame = s.frame ++ bs := rfl

@[simp] theorem State.storeFrame_n (i : Nat) (x : Byte) : (s.storeFrame i x).n = s.n := by unfold State.storeFrame; split <;> rfl
@[simp] theorem State.storeFrame_order (i : Nat) (x : Byte) : (s.storeFrame i x).order = s.order := by unfold State.storeFrame; split <;> rfl
@[simp] theorem State.storeFrame_gamma (i : Nat) (x : Byte) : (s.storeFrame i x).gamma = s.gamma := by unfold State.storeFrame; split <;> rfl
@[simp] theorem State.storeFrame_lastPixels (i : Nat) (x : Byte) : (s.storeFrame i x).lastPixels = s.lastPixels := by unfold State.storeFrame; split <;> rfl
@[simp] theorem State.storeFrame_fault (i : Nat) (x : Byte) : (s.storeFrame i x).fault = s.fault := by unfold State.storeFrame; split <;> rfl
@[simp] theorem State.storeFrame_faultPix (i : Nat) (x : Byte) : (s.storeFrame i x).faultPix = s.faultPix := by unfold State.storeFrame; split <;> rfl
@[simp] theorem State.storeFrame_faultCh (i : Nat) (x : Byte) : (s.storeFrame i x).faultCh = s.faultCh := by unfold State.storeFrame; split <;> rfl
@[simp] theorem State.storeFrame_history (i : Nat) (x : Byte) : (s.storeFrame i x).history = s.history := by unfold State.storeFrame; split <;> rfl
@[simp] theorem State.storeFrame_build (i : Nat) (x : Byte) : (s.storeFrame i x).build = s.build := by unfold State.storeFrame; split <;> rfl
@[simp] theorem State.storeFrame_input (i : Nat) (x : Byte) : (s.storeFrame i x).input = s.input := by unfold State.storeFrame; split <;> rfl
@[simp] theorem State.storeFrame_result (i : Nat) (x : Byte) : (s.storeFrame i x).result = s.result := by unfold State.storeFrame; split <;> rfl
@[simp] theorem State.storeFrame_frames (i : Nat) (x : Byte) : (s.storeFrame i x).frames = s.frames := by unfold State.storeFrame; split <;> rfl
@[simp] theorem State.storeFrame_freeCount (i : Nat) (x : Byte) : (s.storeFrame i x).freeCount = s.freeCount := by unfold State.storeFrame; split <;> rfl
@[simp] theorem State.storeFrame_length (i : Nat) (x : Byte) : (s.storeFrame i x).frame.length = s.frame.length := by
  unfold State.storeFrame; split <;> simp

@[simp] theorem State.setCache_n (ps : List Pixel) : (s.setCache ps).n = s.n := rfl
@[simp] theorem State.setCache_order (ps : List Pixel) : (s.setCache ps).order = s.order := rfl
@[simp] theorem State.setCache_gamma (ps : List Pixel) : (s.setCache ps).gamma = s.gamma := rfl
@[simp] theorem State.setCache_lastPixels (ps : List Pixel) : (s.setCache ps).lastPixels = some ps := rfl
@[simp] theorem State.setCache_fault (ps : List Pixel) : (s.setCache ps).fault = s.fault := rfl
@[simp] theorem State.setCache_faultPix (ps : List Pixel) : (s.setCache ps).faultPix = s.faultPix := rfl
@[simp] theorem State.setCache_faultCh (ps : List Pixel) : (s.setCache ps).faultCh = s.faultCh := rfl
@[simp] theorem State.setCache_history (ps : List Pixel) : (s.setCache ps).history = s.history := rfl
@[simp] theorem State.setCache_frame (ps : List Pixel) : (s.setCache ps).frame = s.frame := rfl
@[simp] theorem State.setCache_build (ps : List Pixel) : (s.setCache ps).build = s.build := rfl
@[simp] theorem State.setCache_frameAhead (ps : List Pixel) : (s.setCache ps).frameAhead = s.frameAhead := rfl
@[simp] theorem State.setCache_input (ps : List Pixel) : (s.setCache ps).input = s.input := rfl
@[simp] theorem State.setCache_result (ps : List Pixel) : (s.setCache ps).result = s.result := rfl
@[simp] theorem State.setCache_frames (ps : List Pixel) : (s.setCache ps).frames = s.frames := rfl
@[simp] theorem State.setCache_freeCount (ps : List Pixel) : (s.setCache ps).freeCount = s.freeCount := rfl

@[simp] theorem State.pushFrame_n (bs : List Byte) : (s.pushFrame bs).n = s.n := rfl
@[simp] theorem State.pushFrame_order (bs : List Byte) : (s.pushFrame bs).order = s.order := rfl
@[simp] theorem State.pushFrame_gamma (bs : List Byte) : (s.pushFrame bs).gamma = s.gamma := rfl
@[simp] theorem State.pushFrame_lastPixels (bs : List Byte) : (s.pushFrame bs).lastPixels = s.lastPixels := rfl
@[simp] theorem State.pushFrame_fault (bs : List Byte) : (s.pushFrame bs).fault = s.fault := rfl
@[simp] theorem State.pushFrame_faultPix (bs : List Byte) : (s.pushFrame bs).faultPix = s.faultPix := rfl
@[simp] theorem State.pushFrame_faultCh (bs : List Byte) : (s.pushFrame bs).faultCh = s.faultCh := rfl
@[simp] theorem State.pushFrame_history (bs : List Byte) : (s.pushFrame bs).history = s.history := rfl
@[simp] theorem State.pushFrame_frame (bs : List Byte) : (s.pushFrame bs).frame = s.frame := rfl
@[simp] theorem State.pushFrame_build (bs : List Byte) : (s.pushFrame bs).build = s.build := rfl
@[simp] theorem State.pushFrame_frameAhead (bs : List Byte) : (s.pushFrame bs).frameAhead = s.frameAhead := rfl
@[simp] theorem State.pushFrame_input (bs : List Byte) : (s.pushFrame bs).input = s.input := rfl
@[simp] theorem State.pushFrame_result (bs : List Byte) : (s.pushFrame bs).result = s.result := rfl
@[simp] theorem State.pushFrame_frames (bs : List Byte) : (s.pushFrame bs).frames = s.frames ++ [bs] := rfl
@[simp] theorem State.pushFrame_freeCount (bs : List Byte) : (s.pushFrame bs).freeCount = s.freeCount := rfl

@[simp] theorem State.pushDispatch_n (bs : List Byte) (mc : Clock) : (s.pushDispatch bs mc).n = s.n := rfl
@[simp] theorem State.pushDispatch_order (bs : List Byte) (mc : Clock) : (s.pushDispatch bs mc).order = s.order := rfl
@[simp] theorem State.pushDispatch_gamma (bs : List Byte) (mc : Clock) : (s.pushDispatch bs mc).gamma = s.gamma := rfl
@[simp] theorem State.pushDispatch_lastPixels (bs : List Byte) (mc : Clock) : (s.pushDispatch bs mc).lastPixels = s.lastPixels := rfl
@[simp] theorem State.pushDispatch_fault (bs : List Byte) (mc : Clock) : (s.pushDispatch bs mc).fault = s.fault := rfl
@[simp] theorem State.pushDispatch_faultPix (bs : List Byte) (mc : Clock) : (s.pushDispatch bs mc).faultPix = s.faultPix := rfl
@[simp] theorem State.pushDispatch_faultCh (bs : List Byte) (mc : Clock) : (s.pushDispatch bs mc).faultCh = s.faultCh := rfl
@[simp] theorem State.pushDispatch_history (bs : List Byte) (mc : Clock) : (s.pushDispatch bs mc).history = s.history ++ [⟨bs, mc, Config.bgReqclock⟩] := rfl
@[simp] theorem State.pushDispatch_frame (bs : List Byte) (mc : Clock) : (s.pushDispatch bs mc).frame = s.frame := rfl
@[simp] theorem State.pushDispatch_build (bs : List Byte) (mc : Clock) : (s.pushDispatch bs mc).build = s.build := rfl
@[simp] theorem State.pushDispatch_frameAhead (bs : List Byte) (mc : Clock) : (s.pushDispatch bs mc).frameAhead = s.frameAhead := rfl
@[simp] theorem State.pushDispatch_input (bs : List Byte) (mc : Clock) : (s.pushDispatch bs mc).input = s.input := rfl
@[simp] theorem State.pushDispatch_result (bs : List Byte) (mc : Clock) : (s.pushDispatch bs mc).result = s.result := rfl
@[simp] theorem State.pushDispatch_frames (bs : List Byte) (mc : Clock) : (s.pushDispatch bs mc).frames = s.frames := rfl
@[simp] theorem State.pushDispatch_freeCount (bs : List Byte) (mc : Clock) : (s.pushDispatch bs mc).freeCount = s.freeCount := rfl

@[simp] theorem State.setFault_n (c : BitVec 2) (p : Nat) (ch : BitVec 2) : (s.setFault c p ch).n = s.n := rfl
@[simp] theorem State.setFault_order (c : BitVec 2) (p : Nat) (ch : BitVec 2) : (s.setFault c p ch).order = s.order := rfl
@[simp] theorem State.setFault_gamma (c : BitVec 2) (p : Nat) (ch : BitVec 2) : (s.setFault c p ch).gamma = s.gamma := rfl
@[simp] theorem State.setFault_lastPixels (c : BitVec 2) (p : Nat) (ch : BitVec 2) : (s.setFault c p ch).lastPixels = s.lastPixels := rfl
@[simp] theorem State.setFault_fault (c : BitVec 2) (p : Nat) (ch : BitVec 2) : (s.setFault c p ch).fault = c := rfl
@[simp] theorem State.setFault_faultPix (c : BitVec 2) (p : Nat) (ch : BitVec 2) : (s.setFault c p ch).faultPix = p := rfl
@[simp] theorem State.setFault_faultCh (c : BitVec 2) (p : Nat) (ch : BitVec 2) : (s.setFault c p ch).faultCh = ch := rfl
@[simp] theorem State.setFault_history (c : BitVec 2) (p : Nat) (ch : BitVec 2) : (s.setFault c p ch).history = s.history := rfl
@[simp] theorem State.setFault_frame (c : BitVec 2) (p : Nat) (ch : BitVec 2) : (s.setFault c p ch).frame = s.frame := rfl
@[simp] theorem State.setFault_build (c : BitVec 2) (p : Nat) (ch : BitVec 2) : (s.setFault c p ch).build = s.build := rfl
@[simp] theorem State.setFault_frameAhead (c : BitVec 2) (p : Nat) (ch : BitVec 2) : (s.setFault c p ch).frameAhead = s.frameAhead := rfl
@[simp] theorem State.setFault_input (c : BitVec 2) (p : Nat) (ch : BitVec 2) : (s.setFault c p ch).input = s.input := rfl
@[simp] theorem State.setFault_result (c : BitVec 2) (p : Nat) (ch : BitVec 2) : (s.setFault c p ch).result = s.result := rfl
@[simp] theorem State.setFault_frames (c : BitVec 2) (p : Nat) (ch : BitVec 2) : (s.setFault c p ch).frames = s.frames := rfl
@[simp] theorem State.setFault_freeCount (c : BitVec 2) (p : Nat) (ch : BitVec 2) : (s.setFault c p ch).freeCount = s.freeCount := rfl

@[simp] theorem State.draw_n : s.draw.n = s.n := rfl
@[simp] theorem State.draw_order : s.draw.order = s.order := rfl
@[simp] theorem State.draw_gamma : s.draw.gamma = s.gamma := rfl
@[simp] theorem State.draw_lastPixels : s.draw.lastPixels = s.lastPixels := rfl
@[simp] theorem State.draw_fault : s.draw.fault = s.fault := rfl
@[simp] theorem State.draw_faultPix : s.draw.faultPix = s.faultPix := rfl
@[simp] theorem State.draw_faultCh : s.draw.faultCh = s.faultCh := rfl
@[simp] theorem State.draw_history : s.draw.history = s.history := rfl
@[simp] theorem State.draw_frame : s.draw.frame = s.frame := rfl
@[simp] theorem State.draw_build : s.draw.build = s.build := rfl
@[simp] theorem State.draw_frameAhead : s.draw.frameAhead = s.frameAhead := rfl
@[simp] theorem State.draw_input : s.draw.input = s.input := rfl
@[simp] theorem State.draw_result : s.draw.result = s.result := rfl
@[simp] theorem State.draw_frames : s.draw.frames = s.frames := rfl
@[simp] theorem State.draw_freeCount : s.draw.freeCount = s.freeCount + 1 := rfl

@[simp] theorem State.setInput_n (ts : List Txn) : (s.setInput ts).n = s.n := rfl
@[simp] theorem State.setInput_order (ts : List Txn) : (s.setInput ts).order = s.order := rfl
@[simp] theorem State.setInput_gamma (ts : List Txn) : (s.setInput ts).gamma = s.gamma := rfl
@[simp] theorem State.setInput_lastPixels (ts : List Txn) : (s.setInput ts).lastPixels = s.lastPixels := rfl
@[simp] theorem State.setInput_fault (ts : List Txn) : (s.setInput ts).fault = s.fault := rfl
@[simp] theorem State.setInput_faultPix (ts : List Txn) : (s.setInput ts).faultPix = s.faultPix := rfl
@[simp] theorem State.setInput_faultCh (ts : List Txn) : (s.setInput ts).faultCh = s.faultCh := rfl
@[simp] theorem State.setInput_history (ts : List Txn) : (s.setInput ts).history = s.history := rfl
@[simp] theorem State.setInput_frame (ts : List Txn) : (s.setInput ts).frame = s.frame := rfl
@[simp] theorem State.setInput_build (ts : List Txn) : (s.setInput ts).build = s.build := rfl
@[simp] theorem State.setInput_frameAhead (ts : List Txn) : (s.setInput ts).frameAhead = s.frameAhead := rfl
@[simp] theorem State.setInput_input (ts : List Txn) : (s.setInput ts).input = ts := rfl
@[simp] theorem State.setInput_result (ts : List Txn) : (s.setInput ts).result = s.result := rfl
@[simp] theorem State.setInput_frames (ts : List Txn) : (s.setInput ts).frames = s.frames := rfl
@[simp] theorem State.setInput_freeCount (ts : List Txn) : (s.setInput ts).freeCount = s.freeCount := rfl

@[simp] theorem resetFields_n (n : Nat) (o : BitVec 3) : (resetFields n o s).n = n := rfl
@[simp] theorem resetFields_order (n : Nat) (o : BitVec 3) : (resetFields n o s).order = o := rfl
@[simp] theorem resetFields_gamma (n : Nat) (o : BitVec 3) : (resetFields n o s).gamma = gammaTable := rfl
@[simp] theorem resetFields_lastPixels (n : Nat) (o : BitVec 3) : (resetFields n o s).lastPixels = none := rfl
@[simp] theorem resetFields_fault (n : Nat) (o : BitVec 3) : (resetFields n o s).fault = causeNone := rfl
@[simp] theorem resetFields_faultPix (n : Nat) (o : BitVec 3) : (resetFields n o s).faultPix = Config.freeFaultPix s.freeCount := rfl
@[simp] theorem resetFields_faultCh (n : Nat) (o : BitVec 3) : (resetFields n o s).faultCh = Config.freeFaultCh s.freeCount := rfl
@[simp] theorem resetFields_history (n : Nat) (o : BitVec 3) : (resetFields n o s).history = [] := rfl
@[simp] theorem resetFields_frame (n : Nat) (o : BitVec 3) : (resetFields n o s).frame = [] := rfl
@[simp] theorem resetFields_build (n : Nat) (o : BitVec 3) : (resetFields n o s).build = s.build := rfl
@[simp] theorem resetFields_frameAhead (n : Nat) (o : BitVec 3) : (resetFields n o s).frameAhead = [] := rfl
@[simp] theorem resetFields_input (n : Nat) (o : BitVec 3) : (resetFields n o s).input = s.input := rfl
@[simp] theorem resetFields_result (n : Nat) (o : BitVec 3) : (resetFields n o s).result = .nothing := rfl
@[simp] theorem resetFields_frames (n : Nat) (o : BitVec 3) : (resetFields n o s).frames = [] := rfl
@[simp] theorem resetFields_freeCount (n : Nat) (o : BitVec 3) : (resetFields n o s).freeCount = s.freeCount + 1 := rfl

/-- The last of two results stands. -/
@[simp] theorem State.setResult_setResult (r r' : Result) : (s.setResult r).setResult r' = s.setResult r' := rfl

end Sys2Proof.Machine
end

