-- ==== Sys2Proof/Laws/Ops.lean ====
section
/-! SUPPORT. One lemma per shared operation that says everything it can do. -/

namespace Sys2Proof.Machine

theorem State.faulted_iff (s : State) : s.faulted = true ↔ s.fault ≠ 0 := by simp [State.faulted]

theorem State.faulted_eq_false (s : State) : s.faulted = false ↔ s.fault = 0 := by simp [State.faulted]

/-! ## Guards -/

/-- An operation that is idle in the faulted state runs when there is no fault. -/
theorem unlessFaulted_of_ok {s : State} {k : Host.Outcome State Fault Refusal} (h : s.fault = 0) :
    unlessFaulted s k = k := by simp [unlessFaulted, State.faulted, h]

/-- In the faulted state it returns at once. -/
theorem unlessFaulted_of_fault {s : State} {k : Host.Outcome State Fault Refusal} (h : s.fault ≠ 0) :
    unlessFaulted s k = .next (s.setResult .nothing) := by
  rw [unlessFaulted, if_pos (s.faulted_iff.mpr h)]

/-- Everything `unlessFaulted` can answer as a next state. -/
theorem unlessFaulted_next {s t : State} {k : Host.Outcome State Fault Refusal} (h : unlessFaulted s k = .next t) :
    s.fault ≠ 0 ∧ t = s.setResult .nothing ∨ s.fault = 0 ∧ k = .next t := by
  by_cases hf : s.fault = 0
  · exact .inr ⟨hf, by rwa [unlessFaulted_of_ok hf] at h⟩
  · rw [unlessFaulted_of_fault hf] at h
    exact .inl ⟨hf, by cases h; rfl⟩

/-- The port refuses exactly the sequences it cannot carry. -/
theorem pixelsRefusal_eq_none_iff (s : State) (ps : List Pixel) :
    pixelsRefusal s ps = none ↔ pixelsFormable s.n s.build.F ps = true := by
  unfold pixelsRefusal pixelsFormable
  by_cases h : ps.length = s.n <;> by_cases h2 : ps.all (pixelFits s.build.F) = true <;> simp [h, h2]

theorem withPixels_of_formable {s : State} {ps : List Pixel} {k : Host.Outcome State Fault Refusal}
    (h : pixelsFormable s.n s.build.F ps = true) : withPixels s ps k = k := by
  simp [withPixels, (pixelsRefusal_eq_none_iff s ps).mpr h]

/-- A sequence the port cannot carry is refused. -/
theorem withPixels_refused {s : State} {ps : List Pixel} {k : Host.Outcome State Fault Refusal}
    (h : pixelsFormable s.n s.build.F ps = false) : ∃ r, withPixels s ps k = .refused r := by
  unfold withPixels
  cases hr : pixelsRefusal s ps with
  | none => rw [(pixelsRefusal_eq_none_iff s ps).mp hr] at h; cases h
  | some r => exact ⟨r, rfl⟩

/-- Everything `withPixels` can answer as a next state. -/
theorem withPixels_next {s t : State} {ps : List Pixel} {k : Host.Outcome State Fault Refusal}
    (h : withPixels s ps k = .next t) : pixelsFormable s.n s.build.F ps = true ∧ k = .next t := by
  cases hf : pixelsFormable s.n s.build.F ps with
  | true => exact ⟨rfl, by rwa [withPixels_of_formable hf] at h⟩
  | false =>
    obtain ⟨r, hr⟩ := withPixels_refused (k := k) hf
    rw [hr] at h; cases h

theorem pixelsFormable_length {n F : Nat} {ps : List Pixel} (h : pixelsFormable n F ps = true) : ps.length = n := by
  simp only [pixelsFormable, Bool.and_eq_true, decide_eq_true_eq] at h; exact h.1

theorem pixelsFormable_fits {n F : Nat} {ps : List Pixel} (h : pixelsFormable n F ps = true) :
    ∀ p ∈ ps, pixelFits F p = true := by
  simp only [pixelsFormable, Bool.and_eq_true, decide_eq_true_eq, List.all_eq_true] at h; exact h.2

/-! ## Raising a fault, and RESET -/

/-- A `RangeFault` with no fault recorded. -/
theorem raise_range {s : State} (h : s.fault = 0) (idx : Nat) (c : Channel) :
    raise (.range idx c) s =
      { s with fault := 1, faultPix := idx, faultCh := channelCode c, result := .nothing } := by
  simp [raise, h, State.setFault, State.setResult]

/-- A `CfgFault` with no fault recorded. -/
theorem raise_cfg {s : State} (h : s.fault = 0) :
    raise .cfg s = { s with fault := 2, faultPix := 0, faultCh := 0, result := .nothing } := by
  simp [raise, h, State.setFault, State.setResult]

/-- In the faulted state a raise leaves the recorded cause. -/
theorem raise_of_fault {s : State} (h : s.fault ≠ 0) (e : Raise) : raise e s = { s with result := .nothing } := by
  unfold raise; rw [if_neg h]; rfl

/-- Everything a raise can do: it writes the three fault fields and the record of the result. -/
theorem raise_frame (e : Raise) (s : State) :
    ∃ c p ch, raise e s = { s with fault := c, faultPix := p, faultCh := ch, result := .nothing } := by
  by_cases h : s.fault = 0
  · cases e with
    | range idx c => exact ⟨_, _, _, raise_range h idx c⟩
    | cfg => exact ⟨_, _, _, raise_cfg h⟩
  · exact ⟨s.fault, s.faultPix, s.faultCh, raise_of_fault h e⟩

/-- A free position is below `N` where there is such a position. -/
theorem freeIndex_lt {s : State} (h : 0 < s.n) : freeIndex s < s.n := by
  rw [freeIndex, if_neg (by omega)]; exact Nat.mod_lt _ h

/-- A free pixel has codes of `F+1` bits. -/
theorem freePixel_fits (s : State) : pixelFits s.build.F (freePixel s) = true := by
  have h (v : Nat) : v % 2 ^ (s.build.F + 1) < 2 ^ (s.build.F + 1) := Nat.mod_lt _ (by positivity)
  simp [pixelFits, codeFits, freePixel, h]

/-- A raise for a pixel index of the sequence records that index. -/
theorem raisePresented_of_lt {s : State} {idx : Nat} (h : idx < s.n) (c : Channel) :
    raisePresented (.range idx c) s = raise (.range idx c) s := by
  simp [raisePresented, h]

/-- A raise for any other index, with no fault recorded, records a free position. -/
theorem raisePresented_of_ge {s : State} (hf : s.fault = 0) {idx : Nat} (h : s.n ≤ idx) (c : Channel) :
    raisePresented (.range idx c) s =
      { s with fault := 1, faultPix := freeIndex s, faultCh := channelCode c, result := .nothing,
               freeCount := s.freeCount + 1 } := by
  simp only [raisePresented, Nat.not_lt.mpr h, if_false]
  rw [raise_range (by exact hf)]; rfl

/-- Everything a raise with a presented index can do: it is a raise whose position is a pixel index where there is one, and it
may draw a free value. -/
theorem raisePresented_eq (e : Raise) (s : State) :
    ∃ e' k, ((∃ i c, e' = .range i c ∧ (0 < s.n → i < s.n)) ∨ e' = .cfg) ∧
      raisePresented e s = raise e' { s with freeCount := k } := by
  cases e with
  | cfg => exact ⟨.cfg, s.freeCount, .inr rfl, rfl⟩
  | range idx c =>
    by_cases h : idx < s.n
    · exact ⟨_, s.freeCount, .inl ⟨idx, c, rfl, fun _ => h⟩, by rw [raisePresented_of_lt h]⟩
    · exact ⟨_, s.freeCount + 1, .inl ⟨freeIndex s, c, rfl, freeIndex_lt⟩, by simp only [raisePresented, h, if_false]; rfl⟩

@[simp] theorem raise_result (e : Raise) (s : State) : (raise e s).result = .nothing := by
  obtain ⟨c, p, ch, h⟩ := raise_frame e s; rw [h]

/-- A raise leaves the block in the faulted state. -/
theorem raise_fault_ne (e : Raise) (s : State) : (raise e s).fault ≠ 0 := by
  by_cases h : s.fault = 0
  · cases e with
    | range idx c => rw [raise_range h]; exact (by decide : (1 : BitVec 2) ≠ 0)
    | cfg => rw [raise_cfg h]; exact (by decide : (2 : BitVec 2) ≠ 0)
  · rw [raise_of_fault h]; exact h

/-- RESET with a legal code. -/
theorem resetTo_legal {order : BitVec 3} (h : order.toNat ≤ 5) (n : Nat) (s : State) :
    resetTo n order s = resetFields n order s := by
  simp [resetTo, orderReserved, Nat.not_lt.mpr h]

/-- RESET with a reserved code. -/
theorem resetTo_reserved {order : BitVec 3} (h : 5 < order.toNat) (n : Nat) (s : State) :
    resetTo n order s =
      { resetFields n order s with fault := 2, faultPix := 0, faultCh := 0, result := .nothing } := by
  rw [resetTo, if_pos (by simpa [orderReserved] using h), raise_cfg (by rfl)]

/-! ## FRAME -/

theorem emitAll_of_room {s : State} {bs : List Byte} (h : s.frame.length + bs.length ≤ frameLen s.n) :
    emitAll bs s = .next
      { s with frame := s.frame ++ bs,
               frameAhead := s.frameAhead.filter fun c => decide (s.frame.length + bs.length ≤ c.1),
               result := .nothing } := by
  rw [emitAll, if_pos h]; rfl

theorem emitAll_overrun {s : State} {bs : List Byte} (h : frameLen s.n < s.frame.length + bs.length) :
    emitAll bs s = .fault .frameOverrun := by
  simp [emitAll, Nat.not_le.mpr h]

/-- Everything `emitAll` can answer as a next state. -/
theorem emitAll_next {s t : State} {bs : List Byte} (h : emitAll bs s = .next t) :
    s.frame.length + bs.length ≤ frameLen s.n ∧ t = (s.pushBytes bs).setResult .nothing := by
  by_cases hr : s.frame.length + bs.length ≤ frameLen s.n
  · rw [emitAll_of_room hr] at h; exact ⟨hr, by cases h; rfl⟩
  · rw [emitAll_overrun (by omega)] at h; cases h

/-- What a store of FRAME does to the cells: the one of its index, and no other. -/
theorem lookup_setCell (i j : Nat) (b : Byte) : ∀ cs : List Host.Cell,
    (setCell i b cs).lookup j = if j = i then some b else cs.lookup j
  | [] => by
    by_cases h : j = i
    · simp [setCell, h]
    · have hb : (j == i) = false := by simpa using h
      simp [setCell, List.lookup, h, hb]
  | (k, x) :: cs => by
    have ih := lookup_setCell i j b cs
    unfold setCell
    by_cases hk : k < i
    · by_cases hj : j = k
      · subst hj
        have : j ≠ i := by omega
        simp [hk, this]
      · have hb : (j == k) = false := by simpa using hj
        simp [hk, List.lookup_cons, ih, hb]
    · by_cases h : j = i
      · by_cases hki : k = i <;> simp [hk, hki, h]
      · have hb : (j == i) = false := by simpa using h
        by_cases hki : k = i <;> simp [hk, hki, List.lookup_cons, h, hb]

theorem mem_setCell {i : Nat} {b : Byte} {c : Host.Cell} : ∀ {cs : List Host.Cell}, c ∈ setCell i b cs →
    c = (i, b) ∨ c ∈ cs
  | [], h => by simpa [setCell] using h
  | d :: cs, h => by
    unfold setCell at h
    split at h
    · rcases List.mem_cons.mp h with rfl | h
      · exact .inr (by simp)
      · exact (mem_setCell h).imp id (List.mem_cons_of_mem _)
    · split at h
      · rcases List.mem_cons.mp h with rfl | h
        · exact .inl rfl
        · exact .inr (List.mem_cons_of_mem _ h)
      · exact List.mem_cons.mp h

/-- A store keeps the cells in rising order. -/
theorem setCell_sorted (i : Nat) (b : Byte) : ∀ {cs : List Host.Cell}, cs.Pairwise (fun c d => c.1 < d.1) →
    (setCell i b cs).Pairwise fun c d => c.1 < d.1
  | [], _ => by simp [setCell]
  | d :: cs, h => by
    obtain ⟨h1, h2⟩ := List.pairwise_cons.mp h
    unfold setCell
    split
    · refine List.pairwise_cons.mpr ⟨fun c hc => ?_, setCell_sorted i b h2⟩
      rcases mem_setCell hc with rfl | hc
      · assumption
      · exact h1 c hc
    · split
      · rename_i hd
        exact List.pairwise_cons.mpr ⟨fun c hc => by have := h1 c hc; simp only; omega, h2⟩
      · refine List.pairwise_cons.mpr ⟨fun c hc => ?_, h⟩
        rcases List.mem_cons.mp hc with rfl | hc
        · simp only; omega
        · have := h1 c hc; simp only; omega

/-- A read of FRAME after a store: the byte stored at its index, and what was there at every other. -/
theorem State.frameAt_storeFrame (s : State) (i j : Nat) (b : Byte) :
    (s.storeFrame i b).frameAt j = if j = i then some b else s.frameAt j := by
  unfold State.storeFrame State.frameAt
  split
  · rename_i hi
    by_cases h : j = i
    · subst h; simp [hi]
    · have h' : i ≠ j := fun e => h e.symm
      simp [h, h']
  · rename_i hi
    simp only [lookup_setCell]
    by_cases h : j = i
    · subst h; simp [hi]
    · simp [h]

/-- A store changes FRAME only. -/
theorem State.storeFrame_frame (s : State) (i : Nat) (b : Byte) :
    ∃ f a, f.length = s.frame.length ∧ s.storeFrame i b = { s with frame := f, frameAhead := a } := by
  unfold State.storeFrame
  split
  · exact ⟨s.frame.set i b, s.frameAhead, by simp, rfl⟩
  · exact ⟨s.frame, setCell i b s.frameAhead, rfl, rfl⟩

/-- A store of a legal byte at an index of FRAME keeps FRAME well formed. -/
theorem storeFrame_wf {s : State} {i : Nat} {b : Byte} (hi : i < frameLen s.n) (hb : legalByte b)
    (h : FrameWf s.n s.frame s.frameAhead) : FrameWf s.n (s.storeFrame i b).frame (s.storeFrame i b).frameAhead := by
  unfold State.storeFrame
  split
  · refine ⟨by simpa using h.bound, fun c hc => ?_, h.sorted, by simpa using h.ahead, h.aheadLegal⟩
    rcases List.mem_or_eq_of_mem_set hc with hc | rfl
    · exact h.legal c hc
    · exact hb
  · refine ⟨h.bound, h.legal, setCell_sorted i b h.sorted, fun c hc => ?_, fun c hc => ?_⟩
    · rcases mem_setCell hc with rfl | hc
      · exact ⟨by simp only; omega, hi⟩
      · exact h.ahead c hc
    · rcases mem_setCell hc with rfl | hc
      · exact hb
      · exact h.aheadLegal c hc

/-- Emitting legal bytes where there is room keeps FRAME well formed. -/
theorem pushBytes_wf {s : State} {bs : List Byte} (hl : s.frame.length + bs.length ≤ frameLen s.n)
    (hb : ∀ b ∈ bs, legalByte b) (h : FrameWf s.n s.frame s.frameAhead) :
    FrameWf s.n (s.pushBytes bs).frame (s.pushBytes bs).frameAhead := by
  refine ⟨by simpa using hl, fun b hm => ?_, h.sorted.filter _, fun c hc => ?_, fun c hc => ?_⟩
  · exact (List.mem_append.mp hm).elim (h.legal b) (hb b)
  · simp only [State.pushBytes, List.mem_filter, decide_eq_true_eq] at hc
    exact ⟨by simpa using hc.2, (h.ahead c hc.1).2⟩
  · simp only [State.pushBytes, List.mem_filter] at hc
    exact h.aheadLegal c hc.1

/-- An empty FRAME is well formed. -/
theorem frameWf_nil (n : Nat) : FrameWf n [] [] := ⟨by simp, by simp, .nil, by simp, by simp⟩

/-- A read of FRAME after TERM's three writes. -/
theorem frameAt_termStores (s : State) (j : Nat) :
    (termStores s).frameAt j =
      if frameIndex s.n (s.n - 1) 0 ≤ j ∧ j < frameIndex s.n (s.n - 1) 0 + 3 then some 0 else s.frameAt j := by
  have h1 : frameIndex s.n (s.n - 1) 1 = frameIndex s.n (s.n - 1) 0 + 1 := rfl
  have h2 : frameIndex s.n (s.n - 1) 2 = frameIndex s.n (s.n - 1) 0 + 2 := rfl
  rw [termStores, State.frameAt_storeFrame, State.frameAt_storeFrame, State.frameAt_storeFrame, h1, h2]
  generalize frameIndex s.n (s.n - 1) 0 = i
  split
  · rw [if_pos (by omega)]
  · split
    · rw [if_pos (by omega)]
    · split
      · rw [if_pos (by omega)]
      · rw [if_neg (by omega)]

/-- TERM's writes change FRAME only, and not how much of it is emitted. -/
theorem termStores_frame (s : State) :
    ∃ f a, f.length = s.frame.length ∧ termStores s = { s with frame := f, frameAhead := a } := by
  unfold termStores
  obtain ⟨f1, a1, l1, e1⟩ := s.storeFrame_frame (frameIndex s.n (s.n - 1) 0) 0
  rw [e1]
  obtain ⟨f2, a2, l2, e2⟩ := State.storeFrame_frame { s with frame := f1, frameAhead := a1 } (frameIndex s.n (s.n - 1) 1) 0
  rw [e2]
  obtain ⟨f3, a3, l3, e3⟩ := State.storeFrame_frame { s with frame := f2, frameAhead := a2 } (frameIndex s.n (s.n - 1) 2) 0
  rw [e3]
  exact ⟨f3, a3, by simp_all, rfl⟩

/-- TERM's writes on a FRAME emitted to its end. -/
theorem termStores_full {s : State} (hn : 1 ≤ s.n) (hf : s.frame.length = frameLen s.n) :
    termStores s = { s with frame := termWrite s.n s.frame } := by
  have hl (j : Nat) (hj : j < 3) : frameIndex s.n (s.n - 1) j < s.frame.length := by
    simp only [hf, frameIndex, frameLen]; omega
  simp [termStores, State.storeFrame, termWrite, hl]

/-- TERM's writes keep FRAME well formed. -/
theorem termStores_wf {s : State} (hn : s.n ≠ 0) (h : FrameWf s.n s.frame s.frameAhead) :
    FrameWf s.n (termStores s).frame (termStores s).frameAhead := by
  have hl (j : Nat) (hj : j < 3) : frameIndex s.n (s.n - 1) j < frameLen s.n := by
    simp only [frameIndex, frameLen]; omega
  have h1 := storeFrame_wf (hl 0 (by omega)) (.inl rfl) h
  have h2 := storeFrame_wf (s := s.storeFrame _ 0) (i := frameIndex s.n (s.n - 1) 1) (by simpa using hl 1 (by omega)) (.inl rfl)
    (by simpa using h1)
  have h3 := storeFrame_wf (s := (s.storeFrame _ 0).storeFrame _ 0) (i := frameIndex s.n (s.n - 1) 2)
    (by simpa using hl 2 (by omega)) (.inl rfl) (by simpa using h2)
  simpa [termStores] using h3

/-- TERM's three writes on a frame emitted to its end: the last three bytes become zero. -/
theorem termWrite_eq {n : Nat} {f : List Byte} (hn : 1 ≤ n) (hf : f.length = frameLen n) :
    termWrite n f = f.take (latchLen n + 3 * (n - 1)) ++ [0, 0, 0] := by
  have hlen : f.length = latchLen n + 3 * (n - 1) + 3 := by simp only [hf, frameLen]; omega
  apply List.ext_getElem
  · simp [termWrite, hlen]
  · intro i h1 h2
    simp only [termWrite, frameIndex, List.getElem_set, List.getElem_append, List.length_take]
    simp only [termWrite, List.length_set] at h1
    have hmin : min (latchLen n + 3 * (n - 1)) f.length = latchLen n + 3 * (n - 1) := by omega
    by_cases c : i < latchLen n + 3 * (n - 1)
    · have a0 : ¬ latchLen n + 3 * (n - 1) = i := by omega
      have a1 : ¬ latchLen n + 3 * (n - 1) + 1 = i := by omega
      have a2 : ¬ latchLen n + 3 * (n - 1) + 2 = i := by omega
      simp [a0, a1, a2, hmin, c]
    · obtain rfl | rfl | rfl : i = latchLen n + 3 * (n - 1) ∨ i = latchLen n + 3 * (n - 1) + 1 ∨
          i = latchLen n + 3 * (n - 1) + 2 := by omega
      all_goals simp [hmin]

theorem termWrite_length (n : Nat) (f : List Byte) : (termWrite n f).length = f.length := by simp [termWrite]

/-! ## PIXEL's bytes and ENCODE's frame -/

theorem channelByte_inRange {s : State} {q : Nat} (h : q ≤ 2 ^ s.build.F) (idx : Nat) (c : Channel) :
    channelByte s idx c q = .ok (gammaRead s (BitVec.ofNat 8 (rne (255 * q) (2 ^ s.build.F)))) := by
  simp [channelByte, quantIndex_inRange h]

theorem channelByte_above {s : State} {q : Nat} (h : 2 ^ s.build.F < q) (idx : Nat) (c : Channel) :
    channelByte s idx c q = .error (.range idx c) := by
  simp [channelByte, quantIndex_above h]

/-- A legal code selects a permutation. -/
theorem permute_legal {order : BitVec 3} (h : order.toNat ≤ 5) (t : PermTable) (gr gg gb : Byte) :
    ∃ tr, permute t order gr gg gb = some tr := by
  unfold permute
  generalize order.toNat = o at h
  interval_cases o <;> exact ⟨_, rfl⟩

/-- PIXEL of an in-range pixel under a legal `ORDER`. -/
theorem pixelBytes_inRange {s : State} {p : Pixel} (ho : s.order.toNat ≤ 5) (hp : inRange s.build.F p) (idx : Nat) :
    pixelBytes s idx p = .ok (tripleOf s p) ∧ (tripleOf s p).length = 3 := by
  obtain ⟨h1, h2, h3⟩ := hp
  unfold pixelBytes tripleOf
  simp only [channelByte_inRange h1, channelByte_inRange h2, channelByte_inRange h3, quantIndex_inRange h1,
    quantIndex_inRange h2, quantIndex_inRange h3]
  obtain ⟨tr, htr⟩ := permute_legal ho s.build.permTable
    (gammaRead s (BitVec.ofNat 8 (rne (255 * p.r) (2 ^ s.build.F))))
    (gammaRead s (BitVec.ofNat 8 (rne (255 * p.g) (2 ^ s.build.F))))
    (gammaRead s (BitVec.ofNat 8 (rne (255 * p.b) (2 ^ s.build.F))))
  simp [htr, Triple.bytes]

/-- A pixel has no bad channel exactly when it is in range. -/
theorem firstBadChannel_none_iff {F : Nat} {p : Pixel} : firstBadChannel F p = none ↔ inRange F p := by
  unfold firstBadChannel inRange
  split
  · constructor
    · intro h; cases h
    · intro h; omega
  · split
    · constructor
      · intro h; cases h
      · intro h; omega
    · split
      · constructor
        · intro h; cases h
        · intro h; omega
      · constructor
        · intro _; omega
        · intro _; rfl

/-- PIXEL of a pixel with a bad channel raises for the first. -/
theorem pixelBytes_bad {s : State} {p : Pixel} {c : Channel} (h : firstBadChannel s.build.F p = some c) (idx : Nat) :
    pixelBytes s idx p = .error (.range idx c) := by
  unfold firstBadChannel at h
  unfold pixelBytes
  split at h
  · cases h; simp [channelByte_above ‹_›]
  · rename_i hr
    split at h
    · cases h; simp [channelByte_inRange (Nat.not_lt.mp hr), channelByte_above ‹_›]
    · rename_i hg
      split at h
      · cases h
        simp [channelByte_inRange (Nat.not_lt.mp hr), channelByte_inRange (Nat.not_lt.mp hg), channelByte_above ‹_›]
      · cases h

/-- PIXEL of an in-range pixel under a reserved `ORDER` (log 20). -/
theorem pixelBytes_reserved {s : State} {p : Pixel} (ho : 5 < s.order.toNat) (hp : inRange s.build.F p) (idx : Nat) :
    pixelBytes s idx p = .error .cfg := by
  obtain ⟨h1, h2, h3⟩ := hp
  have hn : ∀ t gr gg gb, permute t s.order gr gg gb = none := by
    intro t gr gg gb
    unfold permute
    have := s.order.isLt
    generalize s.order.toNat = o at *
    interval_cases o <;> rfl
  simp [pixelBytes, channelByte_inRange h1, channelByte_inRange h2, channelByte_inRange h3, hn]

/-- Everything PIXEL's bytes can be: three, those of `tripleOf`, for an in-range pixel under a legal `ORDER`. -/
theorem pixelBytes_ok {s : State} {idx : Nat} {p : Pixel} {bs : List Byte} (h : pixelBytes s idx p = .ok bs) :
    s.order.toNat ≤ 5 ∧ inRange s.build.F p ∧ bs = tripleOf s p ∧ bs.length = 3 := by
  cases hb : firstBadChannel s.build.F p with
  | some c => rw [pixelBytes_bad hb] at h; cases h
  | none =>
    have hp := firstBadChannel_none_iff.mp hb
    by_cases ho : s.order.toNat ≤ 5
    · obtain ⟨h1, h2⟩ := pixelBytes_inRange ho hp idx
      rw [h1] at h; cases h; exact ⟨ho, hp, rfl, h2⟩
    · rw [pixelBytes_reserved (by omega) hp] at h; cases h

/-- What PIXEL can raise: its own position, or `CfgFault` under a reserved `ORDER`. -/
theorem pixelBytes_error {s : State} {idx : Nat} {p : Pixel} {e : Raise} (h : pixelBytes s idx p = .error e) :
    (∃ c, e = .range idx c) ∨ e = .cfg ∧ 5 < s.order.toNat := by
  cases hb : firstBadChannel s.build.F p with
  | some c => rw [pixelBytes_bad hb] at h; cases h; exact .inl ⟨c, rfl⟩
  | none =>
    have hp := firstBadChannel_none_iff.mp hb
    by_cases ho : s.order.toNat ≤ 5
    · rw [(pixelBytes_inRange ho hp idx).1] at h; cases h
    · rw [pixelBytes_reserved (by omega) hp] at h; cases h; exact .inr ⟨rfl, by omega⟩

/-- At an index of the sequence PIXEL's raise is recorded as it stands. -/
theorem raisePresented_pixelBytes {s : State} {idx : Nat} {p : Pixel} {e : Raise} (hi : idx < s.n)
    (h : pixelBytes s idx p = .error e) : raisePresented e s = raise e s := by
  rcases pixelBytes_error h with ⟨c, rfl⟩ | ⟨rfl, -⟩
  · exact raisePresented_of_lt hi c
  · rfl

/-- The data bytes of in-range pixels under a legal `ORDER`. -/
theorem dataBytes_inRange {s : State} (ho : s.order.toNat ≤ 5) :
    ∀ (ps : List Pixel) (idx : Nat), (∀ p ∈ ps, inRange s.build.F p) →
      dataBytes s idx ps = .ok (ps.flatMap (tripleOf s))
  | [], _, _ => rfl
  | p :: ps, idx, h => by
    have hp := (pixelBytes_inRange ho (h p (by simp)) idx).1
    have hps := dataBytes_inRange ho ps (idx + 1) (fun q hq => h q (by simp [hq]))
    simp [dataBytes, hp, hps]

/-- Everything the data bytes can be. -/
theorem dataBytes_ok {s : State} : ∀ {ps : List Pixel} {idx : Nat} {d : List Byte}, dataBytes s idx ps = .ok d →
    (ps = [] ∨ s.order.toNat ≤ 5) ∧ (∀ p ∈ ps, inRange s.build.F p) ∧ d = ps.flatMap (tripleOf s) ∧
      d.length = 3 * ps.length
  | [], _, d, h => by cases h; simp
  | p :: ps, idx, d, h => by
    unfold dataBytes at h
    cases hb : pixelBytes s idx p with
    | error e => rw [hb] at h; cases h
    | ok bs =>
      cases hr : dataBytes s (idx + 1) ps with
      | error e => simp only [hb, hr] at h; cases h
      | ok rest =>
        simp only [hb, hr] at h
        cases h
        obtain ⟨ho, hp, rfl, hl⟩ := pixelBytes_ok hb
        obtain ⟨_, hps, rfl, hl2⟩ := dataBytes_ok hr
        refine ⟨.inr ho, ?_, by simp, ?_⟩
        · simpa [hp] using hps
        · simp only [List.length_append, List.length_cons, hl, hl2]; omega

/-- What the data bytes can raise: a position among the pixels, or `CfgFault` under a reserved `ORDER`. -/
theorem dataBytes_error {s : State} : ∀ {ps : List Pixel} {idx : Nat} {e : Raise}, dataBytes s idx ps = .error e →
    (∃ i c, e = .range i c ∧ idx ≤ i ∧ i < idx + ps.length) ∨ e = .cfg ∧ 5 < s.order.toNat
  | [], _, e, h => by cases h
  | p :: ps, idx, e, h => by
    unfold dataBytes at h
    cases hb : pixelBytes s idx p with
    | error e' =>
      simp only [hb] at h
      cases h
      rcases pixelBytes_error hb with ⟨c, rfl⟩ | h
      · exact .inl ⟨idx, c, rfl, by omega, by simp⟩
      · exact .inr h
    | ok bs =>
      cases hr : dataBytes s (idx + 1) ps with
      | error e' =>
        simp only [hb, hr] at h
        cases h
        rcases dataBytes_error hr with ⟨i, c, rfl, h1, h2⟩ | h
        · exact .inl ⟨i, c, rfl, by omega, by simp only [List.length_cons]; omega⟩
        · exact .inr h
      | ok rest => simp only [hb, hr] at h; cases h

/-- The first bad pixel is the one the data bytes raise for. -/
theorem dataBytes_firstBad {s : State} (ho : s.order.toNat ≤ 5) : ∀ {ps : List Pixel} (start idx : Nat) {p : Pixel}
    {c : Channel}, ps[idx]? = some p → firstBadChannel s.build.F p = some c →
      (∀ j p', j < idx → ps[j]? = some p' → inRange s.build.F p') →
      dataBytes s start ps = .error (.range (start + idx) c)
  | [], _, _, _, _, h, _, _ => by simp at h
  | q :: qs, start, 0, p, c, h, hc, _ => by
    simp at h
    subst h
    simp [dataBytes, pixelBytes_bad hc]
  | q :: qs, start, idx + 1, p, c, h, hc, hj => by
    have hq : inRange s.build.F q := hj 0 q (by omega) rfl
    have ih := dataBytes_firstBad ho (ps := qs) (start + 1) idx (by simpa using h) hc
      (fun j p' hlt hp' => hj (j + 1) p' (by omega) (by simpa using hp'))
    simp only [dataBytes, (pixelBytes_inRange ho hq start).1, ih]
    congr 2; omega

/-- ENCODE's frame for in-range pixels under a legal `ORDER`: the closed form of R143 and R147. -/
theorem encodeFrame_inRange {s : State} {ps : List Pixel} (ho : s.order.toNat ≤ 5) (hlen : ps.length = s.n)
    (h : ∀ p ∈ ps, inRange s.build.F p) : encodeFrame s ps = .ok (frameOf s ps) := by
  unfold encodeFrame frameOf
  simp only [dataBytes_inRange ho ps 0 h]
  have hd := dataBytes_ok (dataBytes_inRange ho ps 0 h)
  by_cases hn : s.n = 0
  · have : ps = [] := List.length_eq_zero_iff.mp (by omega)
    simp [hn, this, latchBytes, latchLen_eq]
  · have h1 : 1 ≤ s.n := by omega
    rw [if_pos h1, if_neg hn]
    rw [termWrite_eq h1 (by simp [latchBytes, frameLen, hd.2.2.2, hlen])]
    have hne : ps ≠ [] := by rintro rfl; simp at hlen; omega
    have hdl := dataBytes_ok (dataBytes_inRange ho ps.dropLast 0 (fun p hp => h p (List.dropLast_subset ps hp)))
    have hsplit : ps.flatMap (tripleOf s) = ps.dropLast.flatMap (tripleOf s) ++ tripleOf s (ps.getLast hne) := by
      conv_lhs => rw [← List.dropLast_append_getLast hne]
      simp
    have hl : (latchBytes s.n ++ ps.dropLast.flatMap (tripleOf s)).length = latchLen s.n + 3 * (s.n - 1) := by
      simp [latchBytes, hdl.2.2.2, hlen]
    rw [hsplit, ← List.append_assoc, List.take_append_of_le_length (by omega), ← hl, List.take_length]
    simp [latchBytes, latchLen]

/-- Everything ENCODE's frame can be. -/
theorem encodeFrame_ok {s : State} {ps : List Pixel} {f : List Byte} (hlen : ps.length = s.n)
    (h : encodeFrame s ps = .ok f) :
    (ps = [] ∨ s.order.toNat ≤ 5) ∧ (∀ p ∈ ps, inRange s.build.F p) ∧ f = frameOf s ps ∧ f.length = frameLen s.n := by
  cases hd : dataBytes s 0 ps with
  | error e => simp only [encodeFrame, hd] at h; cases h
  | ok d =>
    obtain ⟨ho, hr, rfl, hl⟩ := dataBytes_ok hd
    refine ⟨ho, hr, ?_, ?_⟩
    · rcases ho with rfl | ho
      · have hn : s.n = 0 := by simpa using hlen.symm
        simp [encodeFrame, dataBytes, hn] at h
        simp [frameOf, hn, ← h, latchBytes, latchLen_eq]
      · rw [encodeFrame_inRange ho hlen hr] at h; cases h; rfl
    · simp only [encodeFrame, hd] at h
      split at h <;> cases h <;> simp [termWrite_length, latchBytes, frameLen, hl, hlen]

/-- What ENCODE can raise. -/
theorem encodeFrame_error {s : State} {ps : List Pixel} {e : Raise} (h : encodeFrame s ps = .error e) :
    (∃ i c, e = .range i c ∧ i < ps.length) ∨ e = .cfg ∧ 5 < s.order.toNat := by
  cases hd : dataBytes s 0 ps with
  | ok d => simp only [encodeFrame, hd] at h; split at h <;> cases h
  | error e' =>
    simp only [encodeFrame, hd] at h
    cases h
    rcases dataBytes_error hd with ⟨i, c, rfl, -, h2⟩ | h
    · exact .inl ⟨i, c, rfl, by omega⟩
    · exact .inr h

/-! ## Chunks and dispatches -/

/-- Dispatching chunks appends one dispatch for each and changes nothing else. -/
theorem dispatchAll_eq (mc : Clock) : ∀ (cs : List (List Byte)) (s : State),
    dispatchAll cs mc s = { s with history := s.history ++ cs.map fun c => ⟨c, mc, Config.bgReqclock⟩ }
  | [], s => by simp [dispatchAll]
  | c :: cs, s => by rw [dispatchAll, dispatchAll_eq mc cs]; simp [State.pushDispatch]

/-- Everything SUBMIT can answer as a next state. -/
theorem submit_next {ps : List Pixel} {h : Bool} {tg : Time} {s t : State} (hs : submit ps h tg s = .next t) :
    pixelsFormable s.n s.build.F ps = true ∧
      (s.fault ≠ 0 ∧ t = { s with result := .nothing } ∨
       s.fault = 0 ∧ s.lastPixels = some ps ∧ t = { s with result := .nothing } ∨
       s.fault = 0 ∧ s.lastPixels ≠ some ps ∧
        ((∃ e, encodeFrame s ps = .error e ∧ t = raise e { s with lastPixels := some ps, frame := [], frameAhead := [] }) ∨
         ∃ f, encodeFrame s ps = .ok f ∧
          t = { s with lastPixels := some ps, frame := [], frameAhead := [], history := s.history ++ dispatchesOf f (minClock h tg),
                       result := .nothing })) := by
  obtain ⟨hf, hk⟩ := withPixels_next hs
  refine ⟨hf, ?_⟩
  rcases unlessFaulted_next hk with ⟨h1, rfl⟩ | ⟨h1, hk⟩
  · exact .inl ⟨h1, rfl⟩
  · right
    by_cases hl : s.lastPixels = some ps
    · simp only [suppresses, hl, decide_true, if_true] at hk
      cases hk; exact .inl ⟨h1, hl, rfl⟩
    · right
      refine ⟨h1, hl, ?_⟩
      simp only [suppresses, hl, decide_false] at hk
      cases he : encodeFrame s ps with
      | error e => simp only [he] at hk; cases hk; exact .inl ⟨e, rfl, rfl⟩
      | ok f =>
        simp only [he, dispatchAll_eq] at hk
        cases hk; exact .inr ⟨f, rfl, rfl⟩

end Sys2Proof.Machine
end

