-- ==== Sys2Proof/Laws/Rom.lean ====
section
/-! SUPPORT. The finite facts about the literal gamma table, each checked once over its 256 entries. -/

namespace Sys2Proof.Machine

/-- Each entry is at most the next. -/
theorem gammaTable_adjacent : ∀ k : Fin 255, (gammaTable[k.val]).toNat ≤ (gammaTable[k.val + 1]).toNat := by
  decide +kernel

/-- Every entry has the top bit set. -/
theorem gammaTable_topBit : ∀ k : Byte, (gammaTable[k.toNat]'k.isLt) &&& 0x80 = 0x80 := by decide +kernel

/-- The entries as a list. -/
theorem gammaTable_getElem (k : Nat) (h : k < 256) :
    gammaTable[k] = gammaBytes[k]'(by have := gammaBytes_size; simp at this; omega) := by
  simp [gammaTable]

/-- A read of the intact ROM has the top bit set. -/
theorem gammaRead_topBit {s : State} (h : s.gamma = gammaTable) (k : Byte) : gammaRead s k &&& 0x80 = 0x80 := by
  simp only [gammaRead, h]; exact gammaTable_topBit k

end Sys2Proof.Machine
end

