-- ==== Sys2Proof/Laws/Exec.lean ====
section
/-! SUPPORT. What one operation can do, said once: `exec_effect` lists every shape of next state. -/

namespace Sys2Proof.Machine

/-- Everything an operation that is not the reset event can do when it answers a next state. -/
inductive Effect (i : Instr) (s t : State) : Prop where
  /-- Only the record of the result: a returned value, a suppressed SUBMIT, the faulted state. -/
  | returned (r : Result) (h : t = { s with result := r })
      (cached : ∀ ps, isSubmitOf i ps → s.fault = 0 → s.lastPixels = some ps)
  /-- FRAME is written; a PIXEL may have drawn a free value. -/
  | framed (ok : s.fault = 0) (f : List Byte) (a : List Host.Cell) (k : Nat) (wr : writesFrame i = true)
      (wf : s.gamma = gammaTable → FrameWf s.n s.frame s.frameAhead → FrameWf s.n f a)
      (h : t = { s with frame := f, frameAhead := a, freeCount := k, result := .nothing })
  /-- A fault is taken by an operation other than SUBMIT. -/
  | raised (ok : s.fault = 0) (e : Raise) (f : List Byte) (a : List Host.Cell) (k : Nat) (other : ∀ ps, ¬ isSubmitOf i ps)
      (pos : (∃ i c, e = .range i c ∧ (0 < s.n → i < s.n)) ∨ e = .cfg)
      (fr : f = s.frame ∧ a = s.frameAhead ∨ f = [] ∧ a = [])
      (own : hostOperation i = true → f = [] ∧ a = [] ∧ k = s.freeCount ∧ ∀ i c, e = .range i c → i < s.n)
      (h : t = raise e { s with frame := f, frameAhead := a, freeCount := k })
  /-- ENCODE returns a frame. -/
  | encoded (ok : s.fault = 0) (ps : List Pixel) (f : List Byte) (hi : i = .encode ps) (he : encodeFrame s ps = .ok f)
      (len : ps.length = s.n)
      (h : t = { s with frame := [], frameAhead := [], frames := s.frames ++ [f], result := .frame f })
  /-- DISPATCH appends. -/
  | dispatched (ok : s.fault = 0) (c : List Byte) (mc : Clock) (hi : i = .dispatch c mc) (lo : 1 ≤ c.length)
      (hi20 : c.length ≤ 20) (h : t = { s with history := s.history ++ [⟨c, mc, Config.bgReqclock⟩], result := .nothing })
  /-- An accepted SUBMIT whose ENCODE faults. -/
  | submitRaised (ok : s.fault = 0) (ps : List Pixel) (e : Raise) (hi : isSubmitOf i ps)
      (hp : pixelsFormable s.n s.build.F ps = true) (pos : (∃ k c, e = .range k c ∧ k < s.n) ∨ e = .cfg)
      (h : t = raise e { s with lastPixels := some ps, frame := [], frameAhead := [] })
  /-- An accepted SUBMIT that dispatches its frame. -/
  | submitted (ok : s.fault = 0) (ps : List Pixel) (f : List Byte) (mc : Clock) (hi : isSubmitOf i ps)
      (he : encodeFrame s ps = .ok f) (hp : pixelsFormable s.n s.build.F ps = true)
      (h : t = { s with lastPixels := some ps, frame := [], frameAhead := [], history := s.history ++ dispatchesOf f mc,
                        result := .nothing })

/-- A byte with the top bit set is of the gamma class. -/
theorem legalByte_of_topBit : ∀ b : Byte, b &&& 0x80 = 0x80 → legalByte b := by
  have h : ∀ b : Byte, b &&& 0x80 = 0x80 → 0x80 ≤ b.toNat := by decide
  exact fun b hb => .inr (h b hb)

theorem gammaByteOf_eq (g : BitVec 7) : gammaByteOf g = BitVec.ofNat 8 (128 + g.toNat) := by revert g; decide

/-- The bytes of a permuted triple are among its inputs. -/
theorem permute_mem {t : PermTable} {order : BitVec 3} {gr gg gb : Byte} {tr : Triple}
    (h : permute t order gr gg gb = some tr) : ∀ b ∈ tr.bytes, b = gr ∨ b = gg ∨ b = gb := by
  unfold permute at h
  intro b hb
  generalize order.toNat = o at h
  match o, h with
  | 0, h | 1, h | 2, h | 3, h | 4, h | 5, h =>
    cases h
    cases t <;> simp [permRgb, permRbg, permGrb, permGbr, permBrg, permBgr, Triple.bytes] at hb <;> tauto

/-- With the ROM intact every byte of a pixel's triple has the top bit set. -/
theorem tripleOf_topBit {s : State} (h : s.gamma = gammaTable) (p : Pixel) : ∀ b ∈ tripleOf s p, b &&& 0x80 = 0x80 := by
  intro b hb
  unfold tripleOf at hb
  split at hb
  · split at hb
    · rcases permute_mem ‹_› b hb with rfl | rfl | rfl <;> exact gammaRead_topBit h _
    · simp at hb
  · simp at hb

/-- Everything ENCODE can answer as a next state. -/
theorem execEncode_next {s t : State} {ps : List Pixel} (h : exec (.encode ps) s = .next t) :
    pixelsFormable s.n s.build.F ps = true ∧
      (s.fault ≠ 0 ∧ t = { s with result := .nothing } ∨
       s.fault = 0 ∧ ((∃ e, encodeFrame s ps = .error e ∧ t = raise e { s with frame := [], frameAhead := [] }) ∨
        ∃ f, encodeFrame s ps = .ok f ∧
          t = { s with frame := [], frameAhead := [], frames := s.frames ++ [f], result := .frame f })) := by
  obtain ⟨hf, hk⟩ := withPixels_next h
  refine ⟨hf, ?_⟩
  rcases unlessFaulted_next hk with ⟨h1, rfl⟩ | ⟨h1, hk⟩
  · exact .inl ⟨h1, rfl⟩
  · refine .inr ⟨h1, ?_⟩
    cases he : encodeFrame s ps with
    | error e => simp only [he] at hk; cases hk; exact .inl ⟨e, rfl, rfl⟩
    | ok f => simp only [he] at hk; cases hk; exact .inr ⟨f, rfl, rfl⟩

/-- Positions ENCODE can raise for are pixel indices. -/
theorem encodeFrame_error_pos {s : State} {ps : List Pixel} {e : Raise} (hl : ps.length = s.n)
    (h : encodeFrame s ps = .error e) : (∃ k c, e = .range k c ∧ k < s.n) ∨ e = .cfg := by
  rcases encodeFrame_error h with ⟨k, c, rfl, hk⟩ | ⟨rfl, -⟩
  · exact .inl ⟨k, c, rfl, by omega⟩
  · exact .inr rfl

/-- Both forms of SUBMIT are the one shared operation. -/
theorem exec_isSubmitOf {i : Instr} {ps : List Pixel} (h : isSubmitOf i ps) : ∃ b tg, ∀ s, exec i s = submit ps b tg s := by
  rcases h with rfl | ⟨tg, rfl⟩
  · exact ⟨_, _, fun _ => rfl⟩
  · exact ⟨_, _, fun _ => rfl⟩

/-- A SUBMIT carries one sequence. -/
theorem isSubmitOf_unique {i : Instr} {ps qs : List Pixel} (h : isSubmitOf i ps) (h' : isSubmitOf i qs) : ps = qs := by
  rcases h with rfl | ⟨_, rfl⟩ <;> rcases h' with hq | ⟨_, hq⟩ <;> cases hq <;> rfl

section effects

variable {i : Instr} {s t : State}

theorem effect_idle {k : Host.Outcome State Fault Refusal} (h : unlessFaulted s k = .next t) :
    Effect i s t ∨ s.fault = 0 ∧ k = .next t := by
  rcases unlessFaulted_next h with ⟨h1, rfl⟩ | h
  · exact .inl (.returned _ rfl fun _ _ h => absurd h h1)
  · exact .inr h

theorem effect_pure (hn : ∀ ps, ¬ isSubmitOf i ps) {r : Result} (h : unlessFaulted s (.next (s.setResult r)) = .next t) :
    Effect i s t := by
  rcases effect_idle h with h | ⟨-, h⟩
  · exact h
  · cases h; exact .returned r rfl fun ps h => absurd h (hn ps)

theorem effect_emit (hw : writesFrame i = true) {bs : List Byte} (hb : s.gamma = gammaTable → ∀ b ∈ bs, legalByte b)
    (h : unlessFaulted s (emitAll bs s) = .next t) : Effect i s t := by
  rcases effect_idle h with h | ⟨hf, h⟩
  · exact h
  · obtain ⟨h1, rfl⟩ := emitAll_next h
    exact .framed hf _ _ s.freeCount hw (fun hg => pushBytes_wf h1 (hb hg)) rfl

theorem effect_raise (hn : ∀ ps, ¬ isSubmitOf i ps) (ho : hostOperation i = false) (hf : s.fault = 0) {e : Raise} {k : Nat}
    (h : t = raisePresented e { s with freeCount := k }) : Effect i s t := by
  obtain ⟨e', k', he, hr⟩ := raisePresented_eq e { s with freeCount := k }
  exact .raised hf e' s.frame s.frameAhead k' hn he (.inl ⟨rfl, rfl⟩) (fun h => by rw [ho] at h; cases h) (h.trans hr)

theorem effect_submit {ps : List Pixel} {b : Bool} {tg : Time} (hi : isSubmitOf i ps) (h : submit ps b tg s = .next t) :
    Effect i s t := by
  obtain ⟨hp, ⟨h1, rfl⟩ | ⟨h1, h2, rfl⟩ | ⟨h1, -, ⟨e, h3, rfl⟩ | ⟨f, h3, rfl⟩⟩⟩ := submit_next h
  · exact .returned _ rfl fun _ _ h => absurd h h1
  · exact .returned _ rfl fun qs hq _ => by rw [isSubmitOf_unique hq hi]; exact h2
  · exact .submitRaised h1 ps e hi hp (encodeFrame_error_pos (pixelsFormable_length hp) h3) rfl
  · exact .submitted h1 ps f _ hi h3 hp rfl

theorem effect_term (hn : ∀ ps, ¬ isSubmitOf i ps) (hw : writesFrame i = true) (h : execTerm s = .next t) : Effect i s t := by
  rcases effect_idle h with h | ⟨hf, h⟩
  · exact h
  · split at h
    · cases h; exact .returned _ rfl fun ps h => absurd h (hn ps)
    · rename_i hz
      cases h
      refine .framed hf _ _ s.freeCount hw (fun _ => termStores_wf hz) ?_
      obtain ⟨f, a, -, e⟩ := termStores_frame s
      rw [e]; rfl

theorem effect_emitPixel (hn : ∀ ps, ¬ isSubmitOf i ps) (ho : hostOperation i = false) (hw : writesFrame i = true)
    (hf : s.fault = 0) {idx k : Nat} {p : Pixel} (h : emitPixel idx p { s with freeCount := k } = .next t) : Effect i s t := by
  unfold emitPixel at h
  split at h
  · cases h; exact effect_raise hn ho hf rfl
  · rename_i bs hb
    obtain ⟨h1, rfl⟩ := emitAll_next h
    obtain ⟨-, -, rfl, -⟩ := pixelBytes_ok hb
    refine .framed hf _ _ k hw (fun hg hwf => ?_) rfl
    exact pushBytes_wf (s := { s with freeCount := k }) h1
      (fun b hm => legalByte_of_topBit b (tripleOf_topBit (by exact hg) p b hm)) hwf

theorem effect_pixel (hn : ∀ ps, ¬ isSubmitOf i ps) (ho : hostOperation i = false) (hw : writesFrame i = true) {idx : Nat}
    {ps : List Pixel} (h : execPixel idx ps s = .next t) : Effect i s t := by
  rcases effect_idle (withPixels_next h).2 with h | ⟨hf, h⟩
  · exact h
  · split at h
    · exact effect_emitPixel hn ho hw hf (k := s.freeCount) h
    · exact effect_emitPixel hn ho hw hf (k := s.freeCount + 1) h

theorem effect_quant (hn : ∀ ps, ¬ isSubmitOf i ps) (ho : hostOperation i = false) {q idx : Nat} {c : Channel}
    (h : execQuant q idx c s = .next t) : Effect i s t := by
  unfold execQuant at h
  split at h
  · rcases effect_idle h with h | ⟨hf, h⟩
    · exact h
    · split at h
      · cases h; exact .returned _ rfl fun ps h => absurd h (hn ps)
      · cases h; exact effect_raise hn ho hf (k := s.freeCount) rfl
  · cases h

end effects

/-- What an operation that is not the reset event can do. -/
theorem exec_effect {i : Instr} {s t : State} (h : exec i s = .next t) (hr : isReset i = false) : Effect i s t := by
  have hn : (∀ ps, i ≠ .submitNow ps) → (∀ ps t, i ≠ .submitAt ps t) → ∀ ps, ¬ isSubmitOf i ps := by
    rintro h1 h2 ps (rfl | ⟨t, rfl⟩)
    · exact h1 _ rfl
    · exact h2 _ _ rfl
  cases i with
  | permRgb | permRbg | permGrb | permGbr | permBrg | permBgr | gamma | minclk | chunk =>
    exact effect_pure (hn (by simp) (by simp)) h
  | orderReserved => cases hr
  | reset => cases hr
  | byteNever => cases h
  | faultReserved => cases h
  | byteGamma g =>
    refine effect_emit rfl ?_ h
    rintro - b hb
    simp only [List.mem_singleton] at hb
    subst hb
    right; rw [gammaByteOf_eq]; have := g.isLt; simp; omega
  | byteZero =>
    refine effect_emit rfl ?_ h
    rintro - b hb; exact .inl (List.mem_singleton.mp hb)
  | latch =>
    refine effect_emit rfl ?_ h
    rintro - b hb; exact .inl (List.mem_replicate.mp hb).2
  | pixel idx ps => exact effect_pixel (hn (by simp) (by simp)) rfl rfl h
  | term => exact effect_term (hn (by simp) (by simp)) rfl h
  | faultNone => cases h; exact .returned _ rfl fun ps h => absurd h (hn (by simp) (by simp) ps)
  | faultRange idx c =>
    rcases effect_idle h with h | ⟨hf, h⟩
    · exact h
    · cases h; exact effect_raise (hn (by simp) (by simp)) rfl hf (k := s.freeCount) rfl
  | faultCfg =>
    cases h
    by_cases hf : s.fault = 0
    · exact effect_raise (hn (by simp) (by simp)) rfl hf (e := .cfg) (k := s.freeCount) rfl
    · exact .returned _ (raise_of_fault hf _) fun ps h => absurd h (hn (by simp) (by simp) ps)
  | quant q idx c => exact effect_quant (hn (by simp) (by simp)) rfl h
  | suppress ps => exact effect_pure (hn (by simp) (by simp)) (withPixels_next h).2
  | dispatch c mc =>
    simp only [exec, execDispatch] at h
    split at h
    · rename_i hl
      rcases effect_idle h with h | ⟨hf, h⟩
      · exact h
      · cases h; exact .dispatched hf c mc rfl hl.1 hl.2 rfl
    · cases h
  | encode ps =>
    obtain ⟨hp, ⟨h1, rfl⟩ | ⟨h1, ⟨e, h2, rfl⟩ | ⟨g, h2, rfl⟩⟩⟩ := execEncode_next h
    · exact .returned _ rfl fun ps h => absurd h (hn (by simp) (by simp) ps)
    · have hpos := encodeFrame_error_pos (pixelsFormable_length hp) h2
      refine .raised h1 e [] [] s.freeCount (hn (by simp) (by simp)) ?_ (.inr ⟨rfl, rfl⟩) (fun _ => ⟨rfl, rfl, rfl, ?_⟩) rfl
      · exact hpos.imp (fun ⟨i, c, he, hi⟩ => ⟨i, c, he, fun _ => hi⟩) id
      · rintro i c rfl
        rcases hpos with ⟨_, _, he, hi⟩ | he <;> cases he
        exact hi
    · exact .encoded h1 ps g rfl h2 (pixelsFormable_length hp) rfl
  | submitNow ps => exact effect_submit (.inl rfl) h
  | submitAt ps tg => exact effect_submit (.inr ⟨tg, rfl⟩) h

/-- The reset event is RESET of some straps. -/
theorem exec_reset {i : Instr} {s t : State} (h : exec i s = .next t) (hr : isReset i = true) :
    ∃ n order, t = resetTo n order s := by
  cases i with
  | orderReserved | reset => cases h; exact ⟨_, _, rfl⟩
  | _ => cases hr

end Sys2Proof.Machine
end

