-- ==== Sys2Proof/Laws/PerInstr.lean ====
section
/-! SUPPORT. A law of every operation as syntax: its encoding begins with a code of its port. -/

namespace Sys2Proof.Laws.CodeWord

open Sys2Proof

/-- How many codes a port has: 8 colour orders (R73), 256 bytes (R75), 2 flags (R74), 4 causes (R191), 11 internal operations
(log 9). -/
def codes : Port → Nat
  | .orderCode => 8
  | .outByte => 256
  | .submitFlag => 2
  | .faultCause => 4
  | .internal => 11

/-- The first word of the encoding is a code of the port. -/
def Statement (i : Instr) : Prop := ∀ F, ∃ w ws, (Sys2Proof.encode F i).words = w :: ws ∧ w < codes (Sys2Proof.encode F i).port

theorem permRgb : ∀ gr gg gb, Statement (.permRgb gr gg gb) :=
  fun _ _ _ _ => ⟨_, _, rfl, by simp [codes, Sys2Proof.encode]⟩

theorem permRbg : ∀ gr gg gb, Statement (.permRbg gr gg gb) :=
  fun _ _ _ _ => ⟨_, _, rfl, by simp [codes, Sys2Proof.encode]⟩

theorem permGrb : ∀ gr gg gb, Statement (.permGrb gr gg gb) :=
  fun _ _ _ _ => ⟨_, _, rfl, by simp [codes, Sys2Proof.encode]⟩

theorem permGbr : ∀ gr gg gb, Statement (.permGbr gr gg gb) :=
  fun _ _ _ _ => ⟨_, _, rfl, by simp [codes, Sys2Proof.encode]⟩

theorem permBrg : ∀ gr gg gb, Statement (.permBrg gr gg gb) :=
  fun _ _ _ _ => ⟨_, _, rfl, by simp [codes, Sys2Proof.encode]⟩

theorem permBgr : ∀ gr gg gb, Statement (.permBgr gr gg gb) :=
  fun _ _ _ _ => ⟨_, _, rfl, by simp [codes, Sys2Proof.encode]⟩

theorem orderReserved : ∀ x, Statement (.orderReserved x) :=
  fun x _ => ⟨_, _, rfl, by have := x.isLt; simp only [codes, Sys2Proof.encode]; omega⟩

theorem byteGamma : ∀ g, Statement (.byteGamma g) :=
  fun g _ => ⟨_, _, rfl, by have := g.isLt; simp only [codes, Sys2Proof.encode]; omega⟩

theorem byteZero : Statement .byteZero :=
  fun _ => ⟨_, _, rfl, by simp [codes, Sys2Proof.encode]⟩

theorem byteNever : ∀ v, Statement (.byteNever v) :=
  fun v _ => ⟨_, _, rfl, by have := v.isLt; simp only [codes, Sys2Proof.encode]; omega⟩

theorem submitNow : ∀ ps, Statement (.submitNow ps) :=
  fun _ _ => ⟨_, _, rfl, by simp [codes, Sys2Proof.encode]⟩

theorem submitAt : ∀ ps t, Statement (.submitAt ps t) :=
  fun _ _ _ => ⟨_, _, rfl, by simp [codes, Sys2Proof.encode]⟩

theorem faultNone : Statement .faultNone :=
  fun _ => ⟨_, _, rfl, by simp [codes, Sys2Proof.encode]⟩

theorem faultRange : ∀ idx c, Statement (.faultRange idx c) :=
  fun _ _ _ => ⟨_, _, rfl, by simp [codes, Sys2Proof.encode]⟩

theorem faultCfg : Statement .faultCfg :=
  fun _ => ⟨_, _, rfl, by simp [codes, Sys2Proof.encode]⟩

theorem faultReserved : Statement .faultReserved :=
  fun _ => ⟨_, _, rfl, by simp [codes, Sys2Proof.encode]⟩

theorem quant : ∀ q idx c, Statement (.quant q idx c) :=
  fun _ _ _ _ => ⟨_, _, rfl, by simp [codes, Sys2Proof.encode]⟩

theorem gamma : ∀ k, Statement (.gamma k) :=
  fun _ _ => ⟨_, _, rfl, by simp [codes, Sys2Proof.encode]⟩

theorem latch : Statement .latch :=
  fun _ => ⟨_, _, rfl, by simp [codes, Sys2Proof.encode]⟩

theorem pixel : ∀ idx ps, Statement (.pixel idx ps) :=
  fun _ _ _ => ⟨_, _, rfl, by simp [codes, Sys2Proof.encode]⟩

theorem term : Statement .term :=
  fun _ => ⟨_, _, rfl, by simp [codes, Sys2Proof.encode]⟩

theorem encode : ∀ ps, Statement (.encode ps) :=
  fun _ _ => ⟨_, _, rfl, by simp [codes, Sys2Proof.encode]⟩

theorem suppress : ∀ ps, Statement (.suppress ps) :=
  fun _ _ => ⟨_, _, rfl, by simp [codes, Sys2Proof.encode]⟩

theorem minclk : ∀ h t, Statement (.minclk h t) :=
  fun _ _ _ => ⟨_, _, rfl, by simp [codes, Sys2Proof.encode]⟩

theorem chunk : ∀ f, Statement (.chunk f) :=
  fun _ _ => ⟨_, _, rfl, by simp [codes, Sys2Proof.encode]⟩

theorem dispatch : ∀ bs mc, Statement (.dispatch bs mc) :=
  fun _ _ _ => ⟨_, _, rfl, by simp [codes, Sys2Proof.encode]⟩

theorem reset : ∀ n o, Statement (.reset n o) :=
  fun _ _ _ => ⟨_, _, rfl, by simp [codes, Sys2Proof.encode]⟩

end Sys2Proof.Laws.CodeWord
end

