-- ==== Sys2Proof/Tests/Slice0.lean ====
section
/-! SUPPORT. Tests of the model against the spec's worked examples and derived vectors (95_test_vectors.md), the smoke
test of WellFormed, and a witness of the hypotheses of each statement. -/

namespace Sys2Proof.Tests

open Sys2Proof Sys2Proof.Machine

/-! ## Small states and outcomes -/

/-- The state after `reset N=n ORDER=o` on `State.reset`, with the information fields at 0. -/
def at_ (n : Nat) (o : BitVec 3) : State := { State.reset with n := n, order := o }

/-- `at_` under `PERM_TABLE = AS_NAMED`. -/
def named (n : Nat) (o : BitVec 3) : State := { at_ n o with build := ⟨16, .asNamed⟩ }

/-- A field of the next state, none when the operation stops. -/
def of {α : Type} (o : Host.Outcome State Fault Refusal) (f : State → α) : Option α :=
  match o with
  | .next t => some (f t)
  | .fault _ => none
  | .refused _ => none

/-- The refusal of an operation, none when it does not refuse. -/
def refusalOf (o : Host.Outcome State Fault Refusal) : Option Refusal :=
  match o with
  | .refused r => some r
  | .next _ => none
  | .fault _ => none

/-- The fault of an operation, none when it does not fault. -/
def faultOf (o : Host.Outcome State Fault Refusal) : Option Fault :=
  match o with
  | .fault r => some r
  | .next _ => none
  | .refused _ => none

/-- The three fault fields. -/
def cause (s : State) : BitVec 2 × Nat × BitVec 2 := (s.fault, s.faultPix, s.faultCh)

/-- The bytes of every dispatch, in order. -/
def sent (s : State) : List (List Byte) := s.history.map (·.bytes)

abbrev black : Pixel := ⟨0, 0, 0, 0⟩
abbrev red : Pixel := ⟨0x10000, 0, 0, 0⟩
abbrev green : Pixel := ⟨0, 0x10000, 0, 0⟩
abbrev blue : Pixel := ⟨0, 0, 0x10000, 0⟩

/-! ## Decoding: words written out from the spec's encodings -/

/-- R73: code `000` with the three gamma bytes FF, 97, 84. -/
theorem test_decode_permRgb : decode 16 ⟨.orderCode, [0b000, 0xFF, 0x97, 0x84]⟩ = .ok (.permRgb 0xFF 0x97 0x84) := by decide
/-- R73: code `001`. -/
theorem test_decode_permRbg : decode 16 ⟨.orderCode, [0b001, 0xFF, 0x97, 0x84]⟩ = .ok (.permRbg 0xFF 0x97 0x84) := by decide
/-- R73: code `010`. -/
theorem test_decode_permGrb : decode 16 ⟨.orderCode, [0b010, 0xFF, 0x97, 0x84]⟩ = .ok (.permGrb 0xFF 0x97 0x84) := by decide
/-- R73: code `011`. -/
theorem test_decode_permGbr : decode 16 ⟨.orderCode, [0b011, 0xFF, 0x97, 0x84]⟩ = .ok (.permGbr 0xFF 0x97 0x84) := by decide
/-- R73: code `100`. -/
theorem test_decode_permBrg : decode 16 ⟨.orderCode, [0b100, 0xFF, 0x97, 0x84]⟩ = .ok (.permBrg 0xFF 0x97 0x84) := by decide
/-- R73: code `101`. -/
theorem test_decode_permBgr : decode 16 ⟨.orderCode, [0b101, 0xFF, 0x97, 0x84]⟩ = .ok (.permBgr 0xFF 0x97 0x84) := by decide
/-- R80: codes `110` and `111`. -/
theorem test_decode_orderReserved : decode 16 ⟨.orderCode, [0b110, 0, 0, 0]⟩ = .ok (.orderReserved 0) ∧
    decode 16 ⟨.orderCode, [0b111, 0, 0, 0]⟩ = .ok (.orderReserved 1) := by decide
/-- R75: `1ggggggg`, both ends. -/
theorem test_decode_byteGamma : decode 16 ⟨.outByte, [0b10000000]⟩ = .ok (.byteGamma 0) ∧
    decode 16 ⟨.outByte, [0b11111111]⟩ = .ok (.byteGamma 0x7F) := by decide
/-- R75: `00000000`. -/
theorem test_decode_byteZero : decode 16 ⟨.outByte, [0b00000000]⟩ = .ok .byteZero := by decide
/-- R81: `0vvvvvvv`, both ends. -/
theorem test_decode_byteNever : decode 16 ⟨.outByte, [0x01]⟩ = .ok (.byteNever 1) ∧
    decode 16 ⟨.outByte, [0x7F]⟩ = .ok (.byteNever 0x7F) := by decide
/-- Program P1, transaction 1: `has_target = 0`, the pixel words as printed. -/
theorem test_decode_submitNow : decode 16 ⟨.submitFlag, [0, 0, 0x00000000000010000, 0x00000000000000000]⟩ =
    .ok (.submitNow [red, black]) := by decide
/-- Program P1, transaction 3: `has_target = 1`, pixel 0 has `B = 0x10000`. -/
theorem test_decode_submitAt : decode 16 ⟨.submitFlag, [1, 7, 0x00004000000000000, 0x00000000000000000]⟩ =
    .ok (.submitAt [blue, black] ⟨7⟩) := by decide
/-- R191: the four cause codes. -/
theorem test_decode_causes : decode 16 ⟨.faultCause, [0b00, 0, 0]⟩ = .ok .faultNone ∧
    decode 16 ⟨.faultCause, [0b01, 5, 1]⟩ = .ok (.faultRange 5 .g) ∧
    decode 16 ⟨.faultCause, [0b10, 0, 0]⟩ = .ok .faultCfg ∧
    decode 16 ⟨.faultCause, [0b11, 0, 0]⟩ = .ok .faultReserved := by decide
/-- The pixel word of program P5, `(0.25, 0.5, 1, 0)`, in the operations that carry pixel words (opcodes of log 9). -/
theorem test_decode_pixel_words :
    decode 16 ⟨.internal, [3, 0, 0x00004000100004000]⟩ = .ok (.pixel 0 [⟨0x4000, 0x8000, 0x10000, 0⟩]) ∧
    decode 16 ⟨.internal, [5, 0x00004000100004000]⟩ = .ok (.encode [⟨0x4000, 0x8000, 0x10000, 0⟩]) ∧
    decode 16 ⟨.internal, [6, 0x00004000100004000]⟩ = .ok (.suppress [⟨0x4000, 0x8000, 0x10000, 0⟩]) := by decide
/-- The other internal operations (opcodes of log 9). -/
theorem test_decode_internal :
    decode 16 ⟨.internal, [0, 0x1FFFF, 3, 2]⟩ = .ok (.quant 0x1FFFF 3 .b) ∧
    decode 16 ⟨.internal, [1, 255]⟩ = .ok (.gamma 255) ∧ decode 16 ⟨.internal, [2]⟩ = .ok .latch ∧
    decode 16 ⟨.internal, [4]⟩ = .ok .term ∧ decode 16 ⟨.internal, [7, 1, 9]⟩ = .ok (.minclk true ⟨9⟩) ∧
    decode 16 ⟨.internal, [8, 0, 0x80]⟩ = .ok (.chunk [0, 0x80]) ∧
    decode 16 ⟨.internal, [9, 4, 0xFF]⟩ = .ok (.dispatch [0xFF] 4) ∧
    decode 16 ⟨.internal, [10, 3, 2]⟩ = .ok (.reset 3 2) := by decide
/-- Words outside the formats are rejected by name: a code of 4 bits, a byte of 9 bits, a pixel word of 69 bits, a
missing target. -/
theorem test_decode_rejects : decode 16 ⟨.orderCode, [8, 0, 0, 0]⟩ = .error .codeRange ∧
    decode 16 ⟨.outByte, [256]⟩ = .error .codeRange ∧ decode 16 ⟨.submitFlag, [0, 0, 2 ^ 68]⟩ = .error .operandRange ∧
    decode 16 ⟨.submitFlag, [0]⟩ = .error .wordCount ∧ decode 16 ⟨.internal, [11]⟩ = .error .codeRange := by decide

/-- Each distinct word of the opcode table read in whole bytes, and the coded widths (log 10). -/
theorem test_decodeTableWord : (List.range 6).map (decodeTableWord 8) =
      [some (.permRgb 0 0 0), some (.permRbg 0 0 0), some (.permGrb 0 0 0), some (.permGbr 0 0 0), some (.permBrg 0 0 0),
       some (.permBgr 0 0 0)] ∧
    decodeTableWord 8 6 = some (.orderReserved 0) ∧ decodeTableWord 8 0x80 = some (.byteGamma 0) ∧
    decodeTableWord 1 0 = some (.submitNow [black]) ∧ decodeTableWord 1 1 = some (.submitAt [black] ⟨0⟩) ∧
    decodeTableWord 2 1 = some (.faultRange 0 .r) ∧ decodeTableWord 3 7 = some (.orderReserved 1) := by decide

/-! ## WellFormed smoke: one ill-formed term for each check -/

theorem test_wf_byteNever_zero : (Instr.byteNever 0).wellFormed 1 16 = false := by decide
theorem test_wf_submitNow_length : (Instr.submitNow []).wellFormed 1 16 = false := by decide
theorem test_wf_submitAt_length : (Instr.submitAt [black, black] ⟨0⟩).wellFormed 1 16 = false := by decide
theorem test_wf_quant_width : (Instr.quant 0x20000 0 .r).wellFormed 1 16 = false := by decide
theorem test_wf_pixel_width : (Instr.pixel 0 [⟨0, 0x20000, 0, 0⟩]).wellFormed 1 16 = false := by decide
theorem test_wf_pixel_length : (Instr.pixel 0 []).wellFormed 1 16 = false := by decide
theorem test_wf_encode_red_width : (Instr.encode [⟨0x20000, 0, 0, 0⟩]).wellFormed 1 16 = false := by decide
theorem test_wf_encode_white_width : (Instr.encode [⟨0, 0, 0, 0x20000⟩]).wellFormed 1 16 = false := by decide
theorem test_wf_suppress_length : (Instr.suppress []).wellFormed 1 16 = false := by decide
theorem test_wf_dispatch_empty : (Instr.dispatch [] 0).wellFormed 1 16 = false := by decide
theorem test_wf_dispatch_long : (Instr.dispatch (List.replicate 21 0) 0).wellFormed 1 16 = false := by decide

/-! ## The datapath (95 sections 2.1 to 2.3) -/

/-- The codes around each threshold of the table in 2.1. -/
theorem test_quantIndex : [0x80, 0x81, 0x4000, 0x7FFF, 0x8000, 0x8101, 0x8102, 0xFF7F, 0xFF80, 0x10000, 0x10001].map (quantIndex 16) =
    [some 0, some 1, some 64, some 127, some 128, some 128, some 129, some 254, some 255, some 255, none] := by decide
/-- 2.1 with `F = 8`. -/
theorem test_quantIndex_F8 : [0x080, 0x07F, 0x100, 0x101].map (quantIndex 8) = [some 128, some 127, some 255, none] := by decide
theorem test_quant : of (exec (.quant 0x8000 0 .r) (at_ 2 0)) (·.result) = some (.index 128) := by decide
theorem test_quant_range : of (exec (.quant 0x10001 1 .g) (at_ 2 0)) cause = some (1, 1, 1) := by decide
/-- R100: the pixel index is "used only to report a fault". -/
theorem test_quant_index_unused : of (exec (.quant 0x8000 9 .r) (at_ 2 0)) (·.result) = some (.index 128) := by decide
/-- 2.2: the entries nearest to a tie, and the skip at 235. -/
theorem test_gamma : [0, 27, 28, 53, 118, 146, 234, 235, 254, 255].map (gammaRead State.reset) =
    [0x80, 0x80, 0x81, 0x83, 0x92, 0xA0, 0xE6, 0xE8, 0xFE, 0xFF] := by decide +kernel
/-- R106: the sum of the 256 entries is 42079. -/
theorem test_gamma_sum : (gammaBytes.map BitVec.toNat).sum = 42079 := by decide +kernel
theorem test_gamma_exec : of (exec (.gamma 128) State.reset) (·.result) = some (.byte 0x97) := by decide +kernel
/-- 2.3, `REFERENCE` column. -/
theorem test_perm_reference :
    [Instr.permRgb 0xFF 0x97 0x84, .permRbg 0xFF 0x97 0x84, .permGrb 0xFF 0x97 0x84, .permGbr 0xFF 0x97 0x84,
      .permBrg 0xFF 0x97 0x84, .permBgr 0xFF 0x97 0x84].map (fun i => of (exec i (at_ 1 0)) (·.result)) =
    [some (.triple 0x97 0xFF 0x84), some (.triple 0xFF 0x84 0x97), some (.triple 0x97 0x84 0xFF),
      some (.triple 0x97 0x84 0xFF), some (.triple 0x84 0xFF 0x97), some (.triple 0x84 0x97 0xFF)] := by decide
/-- 2.3, `AS_NAMED` column. -/
theorem test_perm_asNamed :
    [Instr.permRgb 0xFF 0x97 0x84, .permRbg 0xFF 0x97 0x84, .permGrb 0xFF 0x97 0x84, .permGbr 0xFF 0x97 0x84,
      .permBrg 0xFF 0x97 0x84, .permBgr 0xFF 0x97 0x84].map (fun i => of (exec i (named 1 0)) (·.result)) =
    [some (.triple 0xFF 0x97 0x84), some (.triple 0xFF 0x84 0x97), some (.triple 0x97 0xFF 0x84),
      some (.triple 0x97 0x84 0xFF), some (.triple 0x84 0xFF 0x97), some (.triple 0x84 0x97 0xFF)] := by decide
/-- 2.6: RESET samples ORDER 6. -/
theorem test_orderReserved : of (exec (.orderReserved 0) (at_ 3 0)) (fun t => (cause t, t.order, t.n)) =
    some ((2, 0, 0), 6, 3) := by decide
theorem test_byteGamma : of (exec (.byteGamma 0x17) (at_ 1 0)) (·.frame) = some [0x97] := by decide
theorem test_byteZero_overrun : of (exec .byteZero (at_ 1 0)) (·.frame) = some [0] ∧
    faultOf (exec .byteZero (at_ 0 0)) = some .frameOverrun := by decide
theorem test_byteNever : refusalOf (exec (.byteNever 1) (at_ 1 0)) = some .byteNeverEmitted := by decide

/-! ## Framing (95 section 2.4) -/

/-- R140: `N = 33` emits two zero bytes, `N = 65` three. -/
theorem test_latch : of (exec .latch (at_ 33 0)) (·.frame) = some [0, 0] ∧
    of (exec .latch (at_ 65 0)) (·.frame) = some [0, 0, 0] := by decide
/-- R141: `ORDER = BRG`, pixel `(1, 0, 0.5, 0)`. -/
theorem test_pixel : of (exec (.pixel 0 [⟨0x10000, 0, 0x8000, 0⟩]) (at_ 1 4)) (·.frame) = some [0x97, 0xFF, 0x80] := by
  decide +kernel
/-- R141: the last pixel is range-checked. -/
theorem test_pixel_range : of (exec (.pixel 1 [black, ⟨0, 0x10001, 0, 0⟩]) (at_ 2 0)) cause = some (1, 1, 1) := by decide
/-- R142: `N = 2` writes frame indices 4, 5, 6. -/
theorem test_term : of (exec .term { at_ 2 0 with frame := [1, 2, 3, 4, 5, 6, 7] }) (·.frame) =
    some [1, 2, 3, 4, 0, 0, 0] := by decide
/-- R142, with nothing emitted: `N = 2` writes the same three indices, index 0 stays unwritten, and the next free index stays 0. -/
theorem test_term_unemitted : of (exec .term (at_ 2 0))
    (fun t => ([0, 3, 4, 5, 6, 7].map t.frameAt, t.frame)) = some ([none, none, some 0, some 0, some 0, none], []) := by decide
/-- An emission at an index TERM has written replaces the byte there (R16). -/
theorem test_emit_over_term : of (exec (.byteGamma 0x17) { at_ 1 0 with frame := [0], frameAhead := [(1, 0), (2, 0), (3, 0)] })
    (fun t => [0, 1, 2, 3].map t.frameAt) = some [some 0, some 0x97, some 0, some 0] := by decide
/-- S7 under `REFERENCE` (R143) and under `AS_NAMED`, as the document prints it. -/
theorem test_encode : of (exec (.encode [red, green, blue]) (at_ 3 2)) (·.result) =
      some (.frame [0, 0x80, 0x80, 0xFF, 0xFF, 0x80, 0x80, 0, 0, 0]) ∧
    of (exec (.encode [red, green, blue]) (named 3 2)) (·.result) =
      some (.frame [0, 0x80, 0xFF, 0x80, 0xFF, 0x80, 0x80, 0, 0, 0]) := by decide +kernel
/-- 2.4: first in scan order; `W` is not checked. -/
theorem test_encode_range : of (exec (.encode [⟨0x10001, 0, 0, 0⟩, ⟨0x1FFFF, 0, 0, 0⟩]) (at_ 2 0)) cause = some (1, 0, 0) ∧
    of (exec (.encode [⟨0, 0, 0, 0x1FFFF⟩, black]) (at_ 2 0)) (·.result) =
      some (.frame [0, 0x80, 0x80, 0x80, 0, 0, 0]) := by decide +kernel

/-! ## The scheduler (95 section 2.5) and the faults (2.6) -/

/-- Step 1 of 2.5: `submit A now`. -/
theorem test_submitNow : of (exec (.submitNow [red, black]) (at_ 2 0)) (fun t => (sent t, t.lastPixels)) =
    some ([[0, 0x80, 0xFF, 0x80, 0, 0, 0]], some [red, black]) := by decide +kernel
/-- 2.6: blue out of range; the cache has been written. -/
theorem test_submitNow_range : of (exec (.submitNow [⟨0, 0, 0x10001, 0⟩, black]) (at_ 2 0))
    (fun t => (cause t, sent t, t.lastPixels)) = some ((1, 0, 2), [], some [⟨0, 0, 0x10001, 0⟩, black]) := by decide
/-- Steps 3 and 5 of 2.5: a repeat with a target is suppressed, a change is not. -/
theorem test_submitAt_repeat : of (exec (.submitAt [red, black] ⟨1⟩) { at_ 2 0 with lastPixels := some [red, black] }) sent =
    some [] := by decide
theorem test_submitAt : of (exec (.submitAt [green, black] ⟨2⟩) { at_ 2 0 with lastPixels := some [red, black] }) sent =
    some [[0, 0xFF, 0x80, 0x80, 0, 0, 0]] := by decide +kernel
/-- R163: `W` is compared; `none` equals no sequence. -/
theorem test_suppress : of (exec (.suppress [⟨0, 0, 0, 1⟩]) { at_ 1 0 with lastPixels := some [black] }) (·.result) =
      some (.truth false) ∧
    of (exec (.suppress [black]) { at_ 1 0 with lastPixels := some [black] }) (·.result) = some (.truth true) := by decide
theorem test_suppress_none : of (exec (.suppress []) (at_ 0 0)) (·.result) = some (.truth false) := by decide
theorem test_minclk : of (exec (.minclk false ⟨5⟩) (at_ 1 0)) (·.result) = some (.clock 0) := by decide
/-- R166: 22 bytes are 20 and 2; R167: 40 bytes are 20 and 20, none are none. -/
theorem test_chunk : [0, 1, 20, 22, 40, 101].map (fun n => (chunksOf (List.replicate n 0)).map List.length) =
    [[], [1], [20], [20, 2], [20, 20], [20, 20, 20, 20, 20, 1]] := by decide
theorem test_chunk_exec : of (exec (.chunk [1, 2]) (at_ 1 0)) (·.result) = some (.chunks [[1, 2]]) := by decide
theorem test_dispatch : of (exec (.dispatch [0, 0, 0, 0] 7) (at_ 1 0)) (fun t => t.history.map (fun d => (d.bytes, d.minclock))) =
    some [([0, 0, 0, 0], 7)] := by decide
theorem test_dispatch_refused : refusalOf (exec (.dispatch [] 0) (at_ 1 0)) = some .chunkLength ∧
    refusalOf (exec (.dispatch (List.replicate 21 0) 0) (at_ 1 0)) = some .chunkLength := by decide
theorem test_faultNone : of (exec .faultNone (at_ 1 0)) cause = some (0, 0, 0) := by decide
theorem test_faultRange : of (exec (.faultRange 1 .b) (at_ 2 0)) cause = some (1, 1, 2) := by decide
/-- R194: a recorded cause stays. -/
theorem test_faultCfg : of (exec .faultCfg (at_ 1 0)) cause = some (2, 0, 0) ∧
    of (exec .faultCfg { at_ 2 0 with fault := 1, faultPix := 1, faultCh := 2 }) cause = some (1, 1, 2) := by decide
theorem test_faultReserved : refusalOf (exec .faultReserved (at_ 1 0)) = some .causeNeverHeld := by decide
/-- 2.6: `reset N=3 ORDER=5` out of the faulted state; R220: `reset N=3 ORDER=GRB`. -/
theorem test_reset : of (exec (.reset 3 5) { at_ 3 7 with fault := 2 }) (fun t => (t.fault, t.n, t.order)) = some (0, 3, 5) ∧
    of (exec (.reset 3 2) (at_ 1 0)) (fun t => (t.n, t.order, t.lastPixels, t.fault)) = some (3, 2, none, 0) := by decide
/-- P4: `reset N=2 ORDER=7`. -/
theorem test_reset_reserved : of (exec (.reset 2 7) (at_ 1 0)) cause = some (2, 0, 0) := by decide
/-- R150: another length is refused. -/
theorem test_encode_length : refusalOf (exec (.encode [black]) (at_ 2 0)) = some .pixelCount := by decide

/-! ## Steps -/

/-- A step performs the word presented with `withFetchWord`, first after reset. -/
theorem test_step_byte : of (step (State.reset.withFetchWord 8 0x97)) (fun t => (t.frame, t.input)) = some ([0x97], []) := by decide
theorem test_step_submit : of (step (State.reset.withFetchWord 1 0)) (fun t => (sent t, t.lastPixels)) =
    some ([[0, 0, 0, 0]], some [black]) := by decide +kernel
/-- R208: idle with nothing presented. -/
theorem test_step_idle : of (step State.reset) (· == State.reset) = some true := by decide +kernel
theorem test_step_undecodable : refusalOf (step (State.reset.withFetchWord 8 256)) = some (.undecodable .codeRange) := by decide

/-! ## Witnesses: a state and operands that meet the hypotheses of each statement -/

theorem witness_ResetSamplesStrapsAndClears : (5 : BitVec 3).toNat ≤ 5 ∧ 5 < (6 : BitVec 3).toNat := by decide
theorem witness_CauseRowsTakeTheFault : (at_ 1 0).fault = 0 ∧ 0 < (at_ 1 0).n ∧ (at_ 1 0).n ≤ 1 := by decide
theorem witness_FaultedStateIsIdle : { at_ 1 0 with fault := 2 }.fault ≠ 0 ∧ Instr.latch.wellFormed 1 16 = true ∧
    isReset .latch = false ∧ isNeverCode .latch = false := by decide
theorem witness_OnlyResetLeavesTheFaultedState : { at_ 1 0 with fault := 2 }.fault ≠ 0 ∧
    (∀ i ∈ [Instr.latch, .term], isReset i = false) ∧
    of (execAll [.latch, .term] { at_ 1 0 with fault := 2 }) (·.fault) = some 2 := by decide
theorem witness_OtherLengthsAreRefused : ([] : List Pixel).length ≠ (at_ 1 0).n := by decide
theorem witness_NothingElseStops_refused : (Instr.encode []).wellFormed (at_ 1 0).n (at_ 1 0).build.F = false := by decide
theorem witness_NothingElseStops_completes : (Instr.encode [black]).wellFormed (at_ 1 0).n (at_ 1 0).build.F = true ∧
    isNeverCode (.encode [black]) = false := by decide
theorem witness_QuantGivesNearestIndexOrRangeFault_inRange : (at_ 1 0).fault = 0 ∧
    2 ^ 16 < 2 ^ ((at_ 1 0).build.F + 1) ∧ 2 ^ 16 ≤ 2 ^ (at_ 1 0).build.F := by decide
theorem witness_QuantGivesNearestIndexOrRangeFault_above : 0x10001 < 2 ^ ((at_ 1 0).build.F + 1) ∧
    2 ^ (at_ 1 0).build.F < 0x10001 ∧ 0 < (at_ 1 0).n := by decide
theorem witness_QuantOutsideTheSequenceReportsAFreePosition : (at_ 1 0).fault = 0 ∧ 0x10001 < 2 ^ ((at_ 1 0).build.F + 1) ∧
    2 ^ (at_ 1 0).build.F < 0x10001 ∧ (at_ 1 0).n ≤ 1 := by decide
theorem witness_QuantIntegerForm : 1 ≤ 1 ∧ 2 ≤ 2 ^ 1 := by decide
theorem witness_QuantTiesOnlyAtOneHalf : 1 ≤ 16 ∧ 0x8000 ≤ 2 ^ 16 ∧ 2 * (255 * 0x8000) = 2 * (127 * 2 ^ 16) + 2 ^ 16 := by decide
theorem witness_CanonicalCodesReachEveryIndex : 8 ≤ 8 ∧ 7 < 8 := by decide
theorem witness_GammaReturnsThePowerLawByte : (at_ 1 0).fault = 0 ∧ (at_ 1 0).gamma = gammaTable := ⟨by decide, rfl⟩
theorem witness_GammaTableShape : (at_ 2 5).fault = 0 ∧ (at_ 2 5).order.toNat ≤ 5 ∧ (at_ 2 5).gamma = gammaTable ∧
    2 ≤ (at_ 2 5).n ∧ 8 ≤ (at_ 2 5).build.F := ⟨by decide, by decide, rfl, by decide, by decide⟩
theorem witness_PermOperationsFollowTheReferenceTable : (at_ 1 0).fault = 0 ∧ (at_ 1 0).build.permTable = .reference := by decide
theorem witness_PermOperationsAsNamed : (named 1 0).fault = 0 ∧ (named 1 0).build.permTable = .asNamed := by decide
theorem witness_PermIsARearrangement : (5 : BitVec 3).toNat ≤ 5 ∧ 5 < (6 : BitVec 3).toNat := by decide
theorem witness_LatchEmitsZeroBytes : (at_ 1 0).fault = 0 ∧
    { at_ 1 0 with frame := [0, 0, 0] }.frame.length ≤ 3 * (at_ 1 0).n := by decide
theorem witness_OutputByteRowsEmit : { at_ 1 0 with frame := [0, 0, 0] }.frame.length < (1 + 31) / 32 + 3 * 1 := by decide
theorem witness_PixelEmitsItsTriple : (at_ 1 5).fault = 0 ∧ (at_ 1 5).order.toNat ≤ 5 ∧ pixelsFormable 1 16 [red] = true ∧
    [red][0]? = some red ∧ inRange 16 red ∧ { at_ 1 5 with frame := [0] }.frame.length + 3 ≤ (1 + 31) / 32 + 3 * 1 ∧
    { at_ 1 5 with frame := [0] }.frame.length = (1 + 31) / 32 + 3 * 0 := by unfold inRange; decide
theorem witness_PixelFaultsAtItsFirstBadChannel : pixelsFormable 1 16 [⟨0, 0, 0x10001, 0⟩] = true ∧
    firstBadChannel 16 ⟨0, 0, 0x10001, 0⟩ = some .b := by decide
theorem witness_PixelOutsideTheSequenceRunsOnAFreePixel : (at_ 1 5).fault = 0 ∧ (at_ 1 5).order.toNat ≤ 5 ∧
    pixelsFormable 1 16 [red] = true ∧ (at_ 1 5).n ≤ 1 ∧ inRange 16 red ∧ firstBadChannel 16 ⟨0x10001, 0, 0, 0⟩ = some .r ∧
    (at_ 1 5).frame.length + 3 ≤ (1 + 31) / 32 + 3 * 1 ∧
    (1 + 31) / 32 + 3 * 1 < { at_ 1 5 with frame := [0, 0] }.frame.length + 3 := by unfold inRange; decide
theorem witness_TermZeroesTheLastTriple_anywhere : 1 ≤ (at_ 1 0).n ∧ (at_ 1 0).fault = 0 ∧ (at_ 1 0).frame = [] ∧
    of (exec .term (at_ 1 0)) (fun t => [0, 1, 3, 4].map t.frameAt) = some [none, some 0, some 0, none] := by decide
theorem witness_TermZeroesTheLastTriple_full : 1 ≤ (at_ 1 0).n ∧
    { at_ 1 0 with frame := [0, 1, 2, 3] }.frame.length = ((at_ 1 0).n + 31) / 32 + 3 * (at_ 1 0).n ∧ (at_ 0 0).n = 0 := by decide
theorem witness_FrameOperationsStopOutsideFrame : 3 * 1 < [0, 1, 2, (3 : Nat)].length ∧ (1 + 31) / 32 + 3 * 1 ≤ [0, 1, 2, (3 : Nat)].length ∧
    (1 + 31) / 32 + 3 * 1 < [0, (1 : Nat)].length + 3 ∧ pixelsFormable 1 16 [red] = true ∧ inRange 16 red := by
  unfold inRange; decide
theorem witness_EncodeReturnsTheFrame : (at_ 2 5).fault = 0 ∧ (at_ 2 5).order.toNat ≤ 5 ∧ 1 ≤ (at_ 2 5).n ∧
    pixelsFormable 2 16 [red, black] = true ∧ ∀ p ∈ [red, black], inRange 16 p := by unfold inRange; decide
theorem witness_EncodeLength : of (exec (.encode [red]) (at_ 1 0)) (·.result) = some (.frame [0, 0, 0, 0]) := by decide +kernel
theorem witness_OneLedFrameIsFourZeroBytes : (at_ 1 0).n = 1 ∧ pixelFits 16 red = true ∧ inRange 16 red ∧
    pixelFits 16 ⟨0x10001, 0, 0, 0⟩ = true ∧ firstBadChannel 16 ⟨0x10001, 0, 0, 0⟩ = some .r := by unfold inRange; decide
theorem witness_NoLedsGiveTheEmptyFrame : (at_ 0 0).fault = 0 ∧ (at_ 0 0).n = 0 := by decide
theorem witness_ZeroBytesAreLatchAndTerminator : (at_ 2 0).gamma = gammaTable ∧ 1 ≤ (at_ 2 0).n ∧
    of (exec (.encode [red, black]) (at_ 2 0)) (·.result) = some (.frame [0, 0x80, 0xFF, 0x80, 0, 0, 0]) ∧
    [0, 0x80, 0xFF, 0x80, 0, 0, (0 : Byte)][1]? = some 0x80 := ⟨rfl, by decide +kernel, by decide +kernel, rfl⟩
theorem witness_EncodeFaultsAtTheFirstBadCode : pixelsFormable 2 16 [black, ⟨0x1FFFF, 0, 0, 0⟩] = true ∧
    [black, ⟨0x1FFFF, 0, 0, 0⟩][1]? = some (⟨0x1FFFF, 0, 0, 0⟩ : Pixel) ∧
    firstBadChannel 16 ⟨0x1FFFF, 0, 0, 0⟩ = some .r ∧ inRange 16 black ∧
    { at_ 2 0 with fault := 1 }.fault ≠ 0 := by unfold inRange; decide
theorem witness_EncodeIsPureAndTotal : of (exec (.encode [red]) (at_ 1 0)) (·.result) =
    of (exec (.encode [red]) { at_ 1 0 with lastPixels := some [red] }) (·.result) ∧ inRange 16 red := by
  refine ⟨by decide +kernel, by unfold inRange; decide⟩
theorem witness_WhiteChannelNeverReachesTheFrame : pixelsFormable 1 16 [black] = true ∧ pixelsFormable 1 16 [⟨0, 0, 0, 0x1FFFF⟩] = true ∧
    [black].map (fun p => (p.r, p.g, p.b)) = [(⟨0, 0, 0, 0x1FFFF⟩ : Pixel)].map (fun p => (p.r, p.g, p.b)) := by decide
theorem witness_LastColourIsDiscarded : pixelsFormable 2 16 ([red] ++ [black]) = true ∧
    pixelsFormable 2 16 ([red] ++ [green]) = true ∧ inRange 16 red ∧ inRange 16 black ∧ inRange 16 green := by
  unfold inRange; decide
theorem witness_EncodeRefinesItsSteps : (at_ 2 0).fault = 0 ∧ (at_ 2 0).frame = [] ∧ pixelsFormable 2 16 [red, black] = true := by
  decide
theorem witness_SubmitNowDispatchesTheFrame : (at_ 2 5).fault = 0 ∧ (at_ 2 5).order.toNat ≤ 5 ∧
    pixelsFormable 2 16 [red, black] = true ∧ (∀ p ∈ [red, black], inRange 16 p) ∧
    (at_ 2 5).lastPixels ≠ some [red, black] := by unfold inRange; decide
theorem witness_SubmitAtDispatchesTheFrame : (at_ 2 5).order.toNat ≤ 5 ∧ pixelsFormable 2 16 [red, black] = true ∧
    (∀ p ∈ [red, black], inRange 16 p) ∧
    { at_ 2 5 with lastPixels := some [black, black] }.lastPixels ≠ some [red, black] := by unfold inRange; decide
theorem witness_SuppressedSubmitDoesNothing : pixelsFormable 1 16 [red] = true ∧
    { at_ 1 0 with lastPixels := some [red] }.lastPixels = some [red] ∧ isSubmitOf (.submitNow [red]) [red] :=
  ⟨by decide, rfl, .inl rfl⟩
theorem witness_FaultingSubmitWritesOnlyTheCache : pixelsFormable 1 16 [⟨0x10001, 0, 0, 0⟩] = true ∧
    (at_ 1 0).lastPixels ≠ some [⟨0x10001, 0, 0, 0⟩] ∧ firstBadChannel 16 ⟨0x10001, 0, 0, 0⟩ = some .r ∧
    isSubmitOf (.submitAt [⟨0x10001, 0, 0, 0⟩] ⟨3⟩) [⟨0x10001, 0, 0, 0⟩] := ⟨by decide, by decide, by decide, .inr ⟨_, rfl⟩⟩
theorem witness_FaultedSubmitReturnsAtOnce : { at_ 1 0 with fault := 1 }.fault ≠ 0 ∧ pixelsFormable 1 16 [red] = true := by decide
theorem witness_MinclkResolvesTheTarget : (at_ 1 0).fault = 0 := by decide
theorem witness_ChunksReconstructTheFrame : (at_ 1 0).fault = 0 ∧ (chunksOf (List.replicate 22 0)).map List.length = [20, 2] := by decide
theorem witness_DispatchAppendsToHistory : 1 ≤ [(0 : Byte)].length ∧ (List.replicate 20 (0 : Byte)).length ≤ 20 := by decide
theorem witness_RunOfSubmitsDispatchesEachChangeOnce : (at_ 1 0).fault = 0 ∧ (at_ 1 0).order.toNat ≤ 5 ∧
    (∀ x ∈ [Submission.mk [red] none, ⟨[red], some ⟨3⟩⟩, ⟨[black], some ⟨4⟩⟩],
      pixelsFormable 1 16 x.pixels = true ∧ ∀ p ∈ x.pixels, inRange 16 p) ∧
    transmitted none [⟨[red], none⟩, ⟨[red], some ⟨3⟩⟩, ⟨[black], some ⟨4⟩⟩] = [⟨[red], none⟩, ⟨[black], some ⟨4⟩⟩] := by
  unfold inRange; decide
theorem witness_RepeatedSubmitIsSuppressed : of (exec (.submitNow [red]) (at_ 1 0)) (·.fault) = some 0 ∧
    isSubmitOf (.submitNow [red]) [red] := ⟨by decide +kernel, .inl rfl⟩
theorem witness_FirstSubmitAfterResetTransmits : (5 : BitVec 3).toNat ≤ 5 ∧ pixelsFormable 1 16 [red] = true ∧
    (∀ p ∈ [red], inRange 16 p) ∧ isSubmitOf (.submitAt [red] ⟨3⟩) [red] :=
  ⟨by decide, by decide, by unfold inRange; decide, .inr ⟨_, rfl⟩⟩
theorem witness_FrameIsDispatchedWholeOrNotAtAll : of (exec (.submitNow [red, black]) (at_ 2 0)) sent =
    some [[0, 0x80, 0xFF, 0x80, 0, 0, 0]] := by decide +kernel
theorem witness_OnlyResetWritesTheConfiguration : of (exec .latch (at_ 1 0)) (·.n) = some 1 ∧ isReset .latch = false := by decide
theorem witness_HistoryIsAppendOnly : of (exec .latch (at_ 1 0)) sent = some [] ∧ isReset .latch = false := by decide
theorem witness_OnlySubmitWritesTheCache : of (exec (.submitNow [red]) (at_ 1 0)) (·.lastPixels) = some (some [red]) ∧
    isReset (.submitNow [red]) = false := by decide +kernel
/-- One LED, with a SUBMIT.NOW of a black pixel presented. -/
def submitting : State := { at_ 1 0 with input := [⟨.submitFlag, [0, 0, 0]⟩] }
theorem submitting_inv : submitting.Inv := by
  refine ⟨rfl, by decide, by decide, by decide, by decide, by simp [submitting, at_, State.reset], ⟨?_, ?_, ?_, ?_, ?_⟩, ?_, ?_⟩ <;>
    simp [submitting, at_, State.reset]
theorem witness_StepKeepsInvariant : submitting.Inv ∧ of (step submitting) sent = some [[0, 0, 0, 0]] :=
  ⟨submitting_inv, by decide +kernel⟩
theorem witness_HostReachesLfeThroughThreeOperations : hostOperation (.encode [red]) = true ∧
    (Instr.encode [red]).wellFormed (at_ 1 0).n (at_ 1 0).build.F = true ∧ hostOperation (.submitNow []) = true ∧
    (Instr.submitNow []).wellFormed (at_ 1 0).n (at_ 1 0).build.F = false ∧ hostOperation .term = false := by decide
theorem witness_HostOperationsKeepTheirInvariant : submitting.Inv ∧ submitting.HostInv ∧
    of (step submitting) sent = some [[0, 0, 0, 0]] :=
  ⟨submitting_inv, ⟨by decide, ⟨rfl, rfl⟩, by simp [submitting, at_, State.reset], by decide⟩, by decide +kernel⟩
theorem witness_StepPerformsTheDecodedOperation_next : (State.reset.withFetchWord 8 0x97).input = [⟨.outByte, [0x97]⟩] ∧
    decode 16 ⟨.outByte, [0x97]⟩ = .ok (.byteGamma 0x17) := by decide
theorem witness_StepPerformsTheDecodedOperation_refused : decode 16 ⟨.outByte, [256]⟩ = .error .codeRange ∧
    State.reset.input = [] := by decide
theorem witness_DecodeInvertsEncode : (Instr.submitAt [red, black] ⟨3⟩).wellFormed 2 16 = true := by decide
theorem witness_DecodedOperationsReencode : decode 16 ⟨.submitFlag, [0, 9]⟩ = .ok (.submitNow []) := by decide
theorem witness_PixelWordFields_low : 16 ≤ 16 ∧ (unpackPixel 16 (packPixel 16 red)).r.testBit 16 = true := by decide
theorem witness_PixelWordFields_high : 16 < 17 ∧ (2 ^ 17).testBit 17 = true ∧ unpackPixel 16 (2 ^ 17) = ⟨0, 1, 0, 0⟩ := by decide
theorem witness_PixelWordFields_widest : ∀ v ∈ [2 ^ 68 - 1], v < 2 ^ (4 * (16 + 1)) := by decide
theorem witness_PixelWordFields_wide : ∃ v ∈ [0, 2 ^ 68], 2 ^ (4 * (16 + 1)) ≤ v := by decide

end Sys2Proof.Tests
end

section
/-! PROOFS. What `fetch` and `step` answer for each shape of the queue and of the decoder's answer (rules R6, R59, R208). -/

namespace Sys2Proof.Machine

theorem fetch_of_input_nil {s : State} (h : s.input = []) : fetch s = none := by
  simp [fetch, h]

theorem fetch_of_input_cons {s : State} {x : Txn} {rest : List Txn} (h : s.input = x :: rest) :
    fetch s = some (x, s.setInput rest) := by
  simp [fetch, h]

theorem step_of_input_nil {s : State} (h : s.input = []) : step s = .next s := by
  simp [step, fetch_of_input_nil h]

theorem step_of_decode_ok {s : State} {x : Txn} {rest : List Txn} {i : Instr} (h : s.input = x :: rest)
    (hd : decode s.build.F x = .ok i) : step s = exec i (s.setInput rest) := by
  simp [step, fetch_of_input_cons h, hd]

theorem step_of_decode_error {s : State} {x : Txn} {rest : List Txn} {e : DecodeError} (h : s.input = x :: rest)
    (hd : decode s.build.F x = .error e) : step s = .refused (.undecodable e) := by
  simp [step, fetch_of_input_cons h, hd]

/-- Settles O52: one clause for each answer of `fetch` and of `decode`. -/
theorem stepPerformsTheDecodedOperation : Obligations.StepPerformsTheDecodedOperation :=
  ⟨fun _ => step_of_input_nil, fun _ _ _ _ => step_of_decode_ok, fun _ _ _ _ => step_of_decode_error⟩

end Sys2Proof.Machine
end

section
/-! PROOFS. What a raise and the reset event leave of the state, field by field; the shape of chunks and of ENCODE's frame. -/

namespace Sys2Proof.Machine

@[simp] theorem raise_n (e : Raise) (s : State) : (raise e s).n = s.n := by
  obtain ⟨_, _, _, h⟩ := raise_frame e s; rw [h]
@[simp] theorem raise_order (e : Raise) (s : State) : (raise e s).order = s.order := by
  obtain ⟨_, _, _, h⟩ := raise_frame e s; rw [h]
@[simp] theorem raise_gamma (e : Raise) (s : State) : (raise e s).gamma = s.gamma := by
  obtain ⟨_, _, _, h⟩ := raise_frame e s; rw [h]
@[simp] theorem raise_build (e : Raise) (s : State) : (raise e s).build = s.build := by
  obtain ⟨_, _, _, h⟩ := raise_frame e s; rw [h]
@[simp] theorem raise_lastPixels (e : Raise) (s : State) : (raise e s).lastPixels = s.lastPixels := by
  obtain ⟨_, _, _, h⟩ := raise_frame e s; rw [h]
@[simp] theorem raise_history (e : Raise) (s : State) : (raise e s).history = s.history := by
  obtain ⟨_, _, _, h⟩ := raise_frame e s; rw [h]

@[simp] theorem resetTo_build (n : Nat) (order : BitVec 3) (s : State) : (resetTo n order s).build = s.build := by
  unfold resetTo; split <;> simp

theorem orderReserved_eq_false_iff (order : BitVec 3) : orderReserved order = false ↔ order.toNat ≤ 5 := by
  simp [orderReserved]

/-- No channel has code 3 in `fault_ch` (R191). -/
theorem channelCode_ne_three (c : Channel) : channelCode c ≠ 3 := by
  cases c <;> decide

/-- A chunk has 1 to 20 bytes (R77, R166). -/
theorem chunksOf_length {frame c : List Byte} (h : c ∈ chunksOf frame) : 1 ≤ c.length ∧ c.length ≤ 20 := by
  simp only [chunksOf, List.mem_map, List.mem_range, ceilDiv_20] at h
  obtain ⟨j, hj, rfl⟩ := h
  simp only [List.length_take, List.length_drop, Config.chunkMax]
  omega

/-- The dispatches of a frame have 1 to 20 bytes and the background request clock. -/
theorem dispatchesOf_shape {frame : List Byte} {mc : Clock} {d : Dispatch} (h : d ∈ dispatchesOf frame mc) :
    1 ≤ d.bytes.length ∧ d.bytes.length ≤ 20 ∧ d.reqclock = Config.bgReqclock := by
  obtain ⟨c, hc, rfl⟩ := List.mem_map.mp h
  obtain ⟨lo, hi⟩ := chunksOf_length hc
  exact ⟨lo, hi, rfl⟩

/-- With the ROM intact the bytes of ENCODE's frame are of the two classes (R81). -/
theorem frameOf_legal {s : State} (hg : s.gamma = gammaTable) (ps : List Pixel) : ∀ b ∈ frameOf s ps, legalByte b := by
  intro b hb
  unfold frameOf at hb
  split at hb
  · cases hb
  · rcases List.mem_append.mp hb with hb | hterm
    · rcases List.mem_append.mp hb with hlatch | hdata
      · exact .inl (List.eq_of_mem_replicate hlatch)
      · obtain ⟨p, -, hp⟩ := List.mem_flatMap.mp hdata
        exact legalByte_of_topBit b (tripleOf_topBit hg p b hp)
    · exact .inl (by simpa using hterm)

end Sys2Proof.Machine
end

section
/-! PROOFS. What one operation leaves of the configuration, of `history` and of `last_pixels`: each read off `exec_effect`. -/

namespace Sys2Proof.Machine

variable {i : Instr} {s t : State}

/-- No effect but the reset event's writes the straps, the ROM or the build parameters. -/
theorem Effect.configuration (h : Effect i s t) :
    t.build = s.build ∧ t.n = s.n ∧ t.order = s.order ∧ t.gamma = s.gamma := by
  cases h with
  | returned _ ht | framed _ _ _ _ _ _ ht | encoded _ _ _ _ _ _ ht | dispatched _ _ _ _ _ _ ht
  | submitted _ _ _ _ _ _ _ ht => subst ht; exact ⟨rfl, rfl, rfl, rfl⟩
  | raised _ _ _ _ _ _ _ _ _ ht | submitRaised _ _ _ _ _ _ ht => subst ht; simp

/-- `history` grows only by a DISPATCH or a SUBMIT, and only at its end. -/
theorem Effect.history (h : Effect i s t) :
    t.history = s.history ∨ ((∃ ps, isSubmitOf i ps) ∨ ∃ c mc, i = .dispatch c mc) ∧ ∃ ds, t.history = s.history ++ ds := by
  cases h with
  | returned _ ht | framed _ _ _ _ _ _ ht | encoded _ _ _ _ _ _ ht => subst ht; exact .inl rfl
  | raised _ _ _ _ _ _ _ _ _ ht | submitRaised _ _ _ _ _ _ ht => subst ht; exact .inl (by simp)
  | dispatched _ c mc hi _ _ ht => subst ht; exact .inr ⟨.inr ⟨c, mc, hi⟩, _, rfl⟩
  | submitted _ ps _ _ hi _ _ ht => subst ht; exact .inr ⟨.inl ⟨ps, hi⟩, _, rfl⟩

/-- An operation that is no SUBMIT leaves `last_pixels`. -/
theorem Effect.lastPixels_of_not_submit (h : Effect i s t) (hn : ∀ ps, ¬ isSubmitOf i ps) : t.lastPixels = s.lastPixels := by
  cases h with
  | returned _ ht | framed _ _ _ _ _ _ ht | encoded _ _ _ _ _ _ ht | dispatched _ _ _ _ _ _ ht => subst ht; rfl
  | raised _ _ _ _ _ _ _ _ _ ht => subst ht; simp
  | submitRaised _ ps _ hi | submitted _ ps _ _ hi => exact absurd hi (hn ps)

/-- A SUBMIT made with no fault leaves its own sequence in `last_pixels`: a suppressed one found it there, any other writes it. -/
theorem Effect.lastPixels_of_submit (h : Effect i s t) {ps : List Pixel} (hi : isSubmitOf i ps) (hf : s.fault = 0) :
    t.lastPixels = some ps := by
  cases h with
  | returned _ ht cached => subst ht; exact cached ps hi hf
  | framed _ _ _ _ wr => rcases hi with rfl | ⟨_, rfl⟩ <;> cases wr
  | raised _ _ _ _ _ other => exact absurd hi (other ps)
  | encoded _ _ _ he => subst he; rcases hi with hi | ⟨_, hi⟩ <;> cases hi
  | dispatched _ _ _ he => subst he; rcases hi with hi | ⟨_, hi⟩ <;> cases hi
  | submitRaised _ qs _ hq _ _ ht => subst ht; simp [isSubmitOf_unique hi hq]
  | submitted _ qs _ _ hq _ _ ht => subst ht; simp [isSubmitOf_unique hi hq]

end Sys2Proof.Machine

open Sys2Proof Sys2Proof.Machine

/-- Settles O47: the reset event is `resetTo`, and no other effect touches the configuration. -/
theorem onlyResetWritesTheConfiguration : Obligations.OnlyResetWritesTheConfiguration := by
  intro s t i h
  cases hr : isReset i with
  | true =>
    obtain ⟨n, order, rfl⟩ := exec_reset h hr
    exact ⟨resetTo_build n order s, by simp⟩
  | false =>
    obtain ⟨hbuild, hrest⟩ := (exec_effect h hr).configuration
    exact ⟨hbuild, fun _ => hrest⟩

/-- Settles O48: of the effects only a DISPATCH and an accepted SUBMIT append. -/
theorem historyIsAppendOnly : Obligations.HistoryIsAppendOnly := by
  intro s t i h hr
  rcases (exec_effect h hr).history with he | ⟨hi, happ⟩
  · exact ⟨⟨[], by simpa using he⟩, fun _ _ => he⟩
  · refine ⟨happ, fun hs hd => ?_⟩
    rcases hi with ⟨ps, hi⟩ | ⟨c, mc, hi⟩
    · exact absurd hi (hs ps)
    · exact absurd hi (hd c mc)

/-- Settles O49: the two cases of `Effect` for the cache, a SUBMIT and any other operation. -/
theorem onlySubmitWritesTheCache : Obligations.OnlySubmitWritesTheCache := fun _ _ _ h hr =>
  ⟨(exec_effect h hr).lastPixels_of_not_submit, fun _ => (exec_effect h hr).lastPixels_of_submit⟩

end

section
/-! PROOFS. The machine's invariant: the reset event establishes it from any state, a raise and every other effect keep it. -/

namespace Sys2Proof.Machine

/-- The invariant does not speak of the queue, the result or the free-value counter. -/
theorem State.Inv.setInput {s : State} (h : s.Inv) (ts : List Txn) : (s.setInput ts).Inv := { h with }

/-- The invariant under a raise of `e` with no fault recorded: its position is a pixel index where there is one (R25). -/
theorem State.Inv.raise {s : State} (h : s.Inv) (hf : s.fault = 0) {e : Raise}
    (pos : (∃ i c, e = .range i c ∧ (0 < s.n → i < s.n)) ∨ e = .cfg) : (raise e s).Inv := by
  have hlegal : orderReserved s.order ≠ true := fun ho => by
    have := h.orderLegal ho
    simp [hf] at this
  rcases pos with ⟨i, c, rfl, hi⟩ | rfl
  · rw [raise_range hf]
    exact { h with
      causeLegal := by simp
      rangeInfo := fun _ => ⟨hi, channelCode_ne_three c⟩
      cfgInfo := by simp
      orderLegal := fun ho => absurd ho hlegal }
  · rw [raise_cfg hf]
    exact { h with
      causeLegal := by simp
      rangeInfo := by simp
      cfgInfo := fun _ => ⟨rfl, rfl⟩
      orderLegal := fun _ => rfl }

/-- RESET's field writes establish the invariant under a legal `ORDER`, whatever the straps and the state before it. -/
theorem resetFields_inv {order : BitVec 3} (ho : order.toNat ≤ 5) (n : Nat) (s : State) : (resetFields n order s).Inv where
  romIntact := rfl
  causeLegal := by simp
  rangeInfo := by simp
  cfgInfo := by simp
  orderLegal := fun hr => by simp [(orderReserved_eq_false_iff order).mpr ho] at hr
  cacheShape := by simp
  frameWf := frameWf_nil n
  framesShape := by simp
  historyShape := by simp

/-- So does RESET under any `ORDER`: a reserved code differs from a legal one in the cause recorded. -/
theorem resetTo_inv (n : Nat) (order : BitVec 3) (s : State) : (resetTo n order s).Inv := by
  by_cases ho : order.toNat ≤ 5
  · rw [resetTo_legal ho]
    exact resetFields_inv ho n s
  · rw [resetTo_reserved (by omega)]
    have h0 : (resetFields n 0 s).Inv := resetFields_inv (by decide) n s
    exact { h0 with
      causeLegal := by simp
      rangeInfo := by simp
      cfgInfo := fun _ => ⟨rfl, rfl⟩
      orderLegal := fun _ => rfl }

/-- A frame ENCODE returns has the length of R144 and bytes of the two classes, with the ROM intact. -/
theorem encodeFrame_shape {s : State} {ps : List Pixel} {f : List Byte} (hg : s.gamma = gammaTable) (hlen : ps.length = s.n)
    (h : encodeFrame s ps = .ok f) : f.length = frameLen s.n ∧ ∀ b ∈ f, legalByte b := by
  obtain ⟨-, -, rfl, hl⟩ := encodeFrame_ok hlen h
  exact ⟨hl, frameOf_legal hg ps⟩

/-- Every effect keeps the invariant. -/
theorem Effect.inv {i : Instr} {s t : State} (he : Effect i s t) (h : s.Inv) : t.Inv := by
  cases he with
  | returned r ht => subst ht; exact { h with }
  | framed _ f a k _ wf ht => subst ht; exact { h with frameWf := wf h.romIntact h.frameWf }
  | raised ok e f a k _ pos fr _ ht =>
    subst ht
    have hwf : FrameWf s.n f a := by
      rcases fr with ⟨rfl, rfl⟩ | ⟨rfl, rfl⟩
      · exact h.frameWf
      · exact frameWf_nil s.n
    have h' : State.Inv { s with frame := f, frameAhead := a, freeCount := k } := { h with frameWf := hwf }
    exact h'.raise ok pos
  | encoded _ ps f _ he len ht =>
    subst ht
    refine { h with frameWf := frameWf_nil s.n, framesShape := fun g hg => ?_ }
    rcases List.mem_append.mp hg with hold | hnew
    · exact h.framesShape g hold
    · rw [List.mem_singleton.mp hnew]
      exact encodeFrame_shape (s := s) h.romIntact len he
  | dispatched _ c mc _ lo hi ht =>
    subst ht
    refine { h with historyShape := fun d hd => ?_ }
    rcases List.mem_append.mp hd with hold | hnew
    · exact h.historyShape d hold
    · rw [List.mem_singleton.mp hnew]
      exact ⟨lo, hi, rfl⟩
  | submitRaised ok ps e _ hp pos ht =>
    subst ht
    have h' : State.Inv { s with lastPixels := some ps, frame := [], frameAhead := [] } :=
      { h with frameWf := frameWf_nil s.n, cacheShape := fun qs hq => by cases hq; exact hp }
    exact h'.raise ok (pos.imp (fun ⟨k, c, he, hk⟩ => ⟨k, c, he, fun _ => hk⟩) id)
  | submitted _ ps f mc _ _ hp ht =>
    subst ht
    refine { h with
      frameWf := frameWf_nil s.n, cacheShape := fun qs hq => by cases hq; exact hp, historyShape := fun d hd => ?_ }
    rcases List.mem_append.mp hd with hold | hnew
    · exact h.historyShape d hold
    · exact dispatchesOf_shape hnew

/-- Every operation keeps the invariant. -/
theorem exec_keeps_inv {i : Instr} {s t : State} (h : exec i s = .next t) (hinv : s.Inv) : t.Inv := by
  cases hr : isReset i with
  | true =>
    obtain ⟨n, order, rfl⟩ := exec_reset h hr
    exact resetTo_inv n order s
  | false => exact (exec_effect h hr).inv hinv

/-- Everything a step can answer as a next state: the state itself when nothing is presented, or what the decoded operation answers
on the state that waits with the rest. -/
theorem step_next {s t : State} (h : step s = .next t) :
    s.input = [] ∧ t = s ∨
      ∃ x rest i, s.input = x :: rest ∧ decode s.build.F x = .ok i ∧ exec i (s.setInput rest) = .next t := by
  cases hin : s.input with
  | nil => rw [step_of_input_nil hin] at h; cases h; exact .inl ⟨rfl, rfl⟩
  | cons x rest =>
    cases hd : decode s.build.F x with
    | error e => rw [step_of_decode_error hin hd] at h; cases h
    | ok i => rw [step_of_decode_ok hin hd] at h; exact .inr ⟨x, rest, i, rfl, hd, h⟩

end Sys2Proof.Machine

open Sys2Proof Sys2Proof.Machine

/-- Settles O50: a step idles or performs one operation, and every operation keeps the invariant. -/
theorem stepKeepsInvariant : Obligations.StepKeepsInvariant := by
  intro s t hinv h
  rcases step_next h with ⟨-, rfl⟩ | ⟨_, rest, i, -, -, h⟩
  · exact hinv
  · exact exec_keeps_inv h (hinv.setInput rest)

/-- Settles O51: `State.reset` is RESET under the legal strap, but for fault information that no clause reads while `fault = 0`. -/
theorem resetMeetsInvariant : Obligations.ResetMeetsInvariant := by
  have hr : (resetFields Config.strapN Config.strapOrder State.reset).Inv := resetFields_inv (by decide) _ _
  have hinv : State.reset.Inv := { hr with rangeInfo := by decide, cfgInfo := by decide }
  have hhost : State.reset.HostInv :=
    { input := by simp [State.reset]
      frameEmpty := ⟨rfl, rfl⟩
      historyLegal := by simp [State.reset]
      rangePixel := by decide }
  exact ⟨hinv, rfl, rfl, rfl, rfl, rfl, rfl, hhost⟩

end

section
/-! PROOFS. Each operation that emits is, with no fault recorded, `emitAll` of its own bytes; so it stops where they have no room (R50). -/

namespace Sys2Proof.Machine

variable {s : State}

@[simp] theorem latchBytes_length (n : Nat) : (latchBytes n).length = latchLen n := by simp [latchBytes]

theorem exec_latch_of_ok (hf : s.fault = 0) : exec .latch s = emitAll (latchBytes s.n) s :=
  unlessFaulted_of_ok hf

theorem exec_byteZero_of_ok (hf : s.fault = 0) : exec .byteZero s = emitAll [0] s :=
  unlessFaulted_of_ok hf

theorem exec_byteGamma_of_ok (hf : s.fault = 0) (g : BitVec 7) : exec (.byteGamma g) s = emitAll [gammaByteOf g] s :=
  unlessFaulted_of_ok hf

/-- PIXEL at an index of the sequence is PIXEL on the pixel there (R141). -/
theorem exec_pixel_of_getElem? (hf : s.fault = 0) {ps : List Pixel} {idx : Nat} {p : Pixel}
    (hps : pixelsFormable s.n s.build.F ps = true) (hp : ps[idx]? = some p) :
    exec (.pixel idx ps) s = emitPixel idx p s := by
  have hexec : exec (.pixel idx ps) s = execPixel idx ps s := rfl
  rw [hexec, execPixel, withPixels_of_formable hps, unlessFaulted_of_ok hf, hp]

/-- An in-range pixel under a legal `ORDER` emits its triple. -/
theorem emitPixel_inRange {p : Pixel} (ho : s.order.toNat ≤ 5) (hp : inRange s.build.F p) (idx : Nat) :
    emitPixel idx p s = emitAll (tripleOf s p) s := by
  rw [emitPixel, (pixelBytes_inRange ho hp idx).1]

end Sys2Proof.Machine

open Sys2Proof Sys2Proof.Machine

/-- Settles O24: LATCH has `L` bytes to emit, an output byte one and PIXEL three; in each case fewer indices of FRAME are left. -/
theorem frameOperationsStopOutsideFrame : Obligations.FrameOperationsStopOutsideFrame := by
  intro s hf
  have hlen := frameLen_eq s.n
  refine ⟨fun hfull => ?latch, fun hfull => ?outByte, fun ps idx p ho hps hp hr hfull => ?pixel⟩
  case latch =>
    rw [exec_latch_of_ok hf]
    exact emitAll_overrun (by rw [latchBytes_length, frameLen]; omega)
  case outByte =>
    have stop (b : Byte) : emitAll [b] s = .fault .frameOverrun :=
      emitAll_overrun (by rw [List.length_singleton]; omega)
    exact ⟨(exec_byteZero_of_ok hf).trans (stop 0), fun g => (exec_byteGamma_of_ok hf g).trans (stop _)⟩
  case pixel =>
    have htriple := (pixelBytes_inRange ho hr idx).2
    rw [exec_pixel_of_getElem? hf hps hp, emitPixel_inRange ho hr]
    exact emitAll_overrun (by omega)

end

section
/-! PROOFS. What each port's reader answers for the words the encoder writes, and which operations it can answer at all: those whose
operands fit their fields (`Instr.operandsFit`). Decoding inverts the encoding on exactly these (R72 to R75, R191). -/

namespace Sys2Proof

open Machine

/-- The operands fit the fields the encoder writes them to. Unlike `Instr.wellFormed` it says nothing of how many pixels or bytes a
list has, which the decoder does not look at. -/
def Instr.operandsFit (F : Nat) : Instr → Prop
  | .byteNever v => v ≠ 0
  | .submitNow ps | .submitAt ps _ | .pixel _ ps | .encode ps | .suppress ps => ∀ p ∈ ps, pixelFits F p = true
  | .quant q _ _ => codeFits F q = true
  | _ => True

theorem Instr.operandsFit_of_wellFormed {n F : Nat} {i : Instr} (h : i.wellFormed n F = true) : i.operandsFit F := by
  cases i with
  | byteNever v => simpa [wellFormed, operandsFit] using h
  | submitNow | submitAt | pixel | encode | suppress => exact pixelsFormable_fits h
  | quant => exact h
  | _ => trivial

/-! ## The encoder's words read back, port by port -/

/-- Any byte words after a code give `permOf` of that code. -/
theorem decodeOrder_bytes (code : Nat) (gr gg gb : Byte) :
    decodeOrder [code, gr.toNat, gg.toNat, gb.toNat] = permOf code gr gg gb := by
  simp [decodeOrder, readByte_toNat]

/-- The codes `11x` (R80). -/
theorem permOf_reserved (x : BitVec 1) (gr gg gb : Byte) : permOf (6 + x.toNat) gr gg gb = .ok (.orderReserved x) := by
  obtain rfl | rfl : x = 0 ∨ x = 1 := by revert x; decide
  · rfl
  · rfl

theorem decodeOutByte_gamma (g : BitVec 7) : decodeOutByte [128 + g.toNat] = .ok (.byteGamma g) := by
  have hg := g.isLt
  have hnever : ¬ 128 + g.toNat < 128 := by omega
  have hbyte : 128 + g.toNat < 256 := by omega
  simp [decodeOutByte, hnever, hbyte]

theorem decodeOutByte_never {v : BitVec 7} (h : v ≠ 0) : decodeOutByte [v.toNat] = .ok (.byteNever v) := by
  have hzero : v.toNat ≠ 0 := fun h0 => h (BitVec.eq_of_toNat_eq h0)
  have hlt : v.toNat < 128 := v.isLt
  simp only [decodeOutByte, if_neg hzero, if_pos hlt, BitVec.ofNat_toNat, BitVec.setWidth_eq]

theorem decodeInternal_reset (F n : Nat) (order : BitVec 3) :
    decodeInternal F [10, n, order.toNat] = .ok (.reset n order) := by
  have hlt : order.toNat < 8 := order.isLt
  simp [decodeInternal, hlt]

theorem decodeInternal_dispatch (F : Nat) (bs : List Byte) (mc : Clock) :
    decodeInternal F (9 :: mc.toNat :: byteWords bs) = .ok (.dispatch bs mc) := by
  have hlt : mc.toNat < 2 ^ 64 := mc.isLt
  simp only [decodeInternal, if_pos hlt, readBytes_byteWords, BitVec.ofNat_toNat, BitVec.setWidth_eq]

/-- Decoding inverts the encoding of every operation whose operands fit. -/
theorem decode_encode {F : Nat} {i : Instr} (h : i.operandsFit F) : decode F (encode F i) = .ok i := by
  cases i with
  | permRgb gr gg gb | permRbg gr gg gb | permGrb gr gg gb | permGbr gr gg gb | permBrg gr gg gb | permBgr gr gg gb =>
    exact decodeOrder_bytes _ gr gg gb
  | orderReserved x => exact (decodeOrder_bytes _ 0 0 0).trans (permOf_reserved x 0 0 0)
  | byteGamma g => exact decodeOutByte_gamma g
  | byteNever v => exact decodeOutByte_never h
  | byteZero | faultNone | faultCfg | faultReserved | latch | term => rfl
  | submitNow ps | submitAt ps _ => simp [encode, decode, decodeSubmit, readFlag, readPixels_pixelWords h]
  | faultRange idx c => simp [encode, decode, decodeCause, readChannel_code]
  | quant q idx c =>
    have hq : codeFits F q = true := h
    simp [encode, decode, decodeInternal, hq, readChannel_code]
  | pixel _ ps | encode ps | suppress ps => simp [encode, decode, decodeInternal, readPixels_pixelWords h]
  | gamma k => simp [encode, decode, decodeInternal, readByte_toNat]
  | minclk b target => simp [encode, decode, decodeInternal, readFlag_toNat]
  | chunk bs => simp [encode, decode, decodeInternal, readBytes_byteWords]
  | dispatch bs mc => exact decodeInternal_dispatch F bs mc
  | reset n order => exact decodeInternal_reset F n order

/-! ## What the decoder can answer -/

theorem decodeOrder_operandsFit {F : Nat} {ws : List Nat} {i : Instr} (h : decodeOrder ws = .ok i) : i.operandsFit F := by
  unfold decodeOrder at h
  split at h
  · split at h
    · unfold permOf at h
      split at h <;> cases h <;> trivial
    · cases h
  · cases h

theorem decodeOutByte_operandsFit {F : Nat} {ws : List Nat} {i : Instr} (h : decodeOutByte ws = .ok i) :
    i.operandsFit F := by
  unfold decodeOutByte at h
  split at h
  · split at h
    · cases h; trivial
    · rename_i v hzero
      split at h
      · rename_i hlt
        cases h
        intro h0
        have : v % 128 = 0 := congrArg BitVec.toNat h0
        omega
      · split at h
        · cases h; trivial
        · cases h
  · cases h

theorem decodeSubmit_operandsFit {F : Nat} {ws : List Nat} {i : Instr} (h : decodeSubmit F ws = .ok i) :
    i.operandsFit F := by
  unfold decodeSubmit at h
  split at h
  · split at h
    · cases h; exact readPixels_fits ‹_›
    · cases h; exact readPixels_fits ‹_›
    · cases h
    · cases h
  · cases h

theorem decodeCause_operandsFit {F : Nat} {ws : List Nat} {i : Instr} (h : decodeCause ws = .ok i) : i.operandsFit F := by
  unfold decodeCause at h
  split at h
  · split at h
    case h_1 | h_3 | h_4 => cases h; trivial
    case h_2 => -- FAULT.RANGE reads a channel
      split at h <;> cases h
      trivial
    case h_5 => cases h
  · cases h

theorem decodeInternal_operandsFit {F : Nat} {ws : List Nat} {i : Instr} (h : decodeInternal F ws = .ok i) :
    i.operandsFit F := by
  unfold decodeInternal at h
  split at h
  · cases h
  · split at h
    case h_1 => -- QUANT
      split at h
      · rename_i hq
        split at h <;> cases h
        exact hq
      · cases h
    case h_4 | h_6 | h_7 => -- PIXEL, ENCODE, SUPPRESS
      split at h <;> cases h
      exact readPixels_fits ‹_›
    case h_3 | h_5 => cases h; trivial -- LATCH, TERM
    case h_2 | h_8 | h_9 | h_11 => -- GAMMA, MINCLK, CHUNK, RESET
      split at h <;> cases h
      trivial
    case h_10 => -- DISPATCH
      split at h
      · split at h <;> cases h
        trivial
      · cases h
    case h_12 => split at h <;> cases h -- no operation's words

/-- Whatever the decoder answers, its operands fit. -/
theorem decode_operandsFit {F : Nat} {x : Txn} {i : Instr} (h : decode F x = .ok i) : i.operandsFit F := by
  unfold decode at h
  split at h
  · exact decodeOrder_operandsFit h
  · exact decodeOutByte_operandsFit h
  · exact decodeSubmit_operandsFit h
  · exact decodeCause_operandsFit h
  · exact decodeInternal_operandsFit h

end Sys2Proof

open Sys2Proof Sys2Proof.Machine

/-- Settles O53: an operation the port can carry has operands that fit, and on these decoding inverts the encoding. -/
theorem decodeInvertsEncode : Obligations.DecodeInvertsEncode :=
  fun _ _ _ h => decode_encode (Instr.operandsFit_of_wellFormed h)

/-- Settles O54: the decoder answers only operations whose operands fit. -/
theorem decodedOperationsReencode : Obligations.DecodedOperationsReencode :=
  fun _ _ _ h => decode_encode (decode_operandsFit h)

end

section
/-! PROOFS. Where an operation stops: the operands the port cannot carry, the two never codes, and an emission past the last index of
FRAME (logs 18, 19). -/

namespace Sys2Proof.Machine

variable {s : State}

/-- An operation the port cannot carry is refused: it is the byte 0 read as BYTE.NEVER, or a sequence, code or chunk out of its domain. -/
theorem exec_refused_of_not_wellFormed {i : Instr} (h : i.wellFormed s.n s.build.F = false) : ∃ r, exec i s = .refused r := by
  cases i with
  | byteNever => exact ⟨_, rfl⟩
  | submitNow | submitAt | pixel | encode | suppress => exact withPixels_refused h
  | quant q idx c =>
    have hq : ¬ codeFits s.build.F q = true := by simpa [Instr.wellFormed] using h
    exact ⟨_, if_neg hq⟩
  | dispatch bs mc =>
    have hlen : ¬ (1 ≤ bs.length ∧ bs.length ≤ Config.chunkMax) := by simpa [Instr.wellFormed] using h
    exact ⟨_, if_neg hlen⟩
  | _ => cases h

/-- The operation answers a next state. -/
def Completes (o : Host.Outcome State Fault Refusal) : Prop := ∃ t, o = .next t

theorem completes_next (t : State) : Completes (.next t) := ⟨t, rfl⟩

/-- What holds of a next state and of the operation itself holds of it behind the guard of the faulted state. -/
theorem unlessFaulted_elim {P : Host.Outcome State Fault Refusal → Prop} {k : Host.Outcome State Fault Refusal}
    (idle : ∀ t, P (.next t)) (run : P k) : P (unlessFaulted s k) := by
  unfold unlessFaulted
  split
  · exact idle _
  · exact run

theorem completes_submit {ps : List Pixel} (h : pixelsFormable s.n s.build.F ps = true) (b : Bool) (target : Time) :
    Completes (submit ps b target s) := by
  rw [submit, withPixels_of_formable h]
  refine unlessFaulted_elim completes_next ?_
  split
  · exact completes_next _
  · split <;> exact completes_next _

theorem completes_encode {ps : List Pixel} (h : pixelsFormable s.n s.build.F ps = true) : Completes (execEncode ps s) := by
  rw [execEncode, withPixels_of_formable h]
  refine unlessFaulted_elim completes_next ?_
  split <;> exact completes_next _

theorem completes_quant {q : Nat} (h : codeFits s.build.F q = true) (idx : Nat) (c : Channel) :
    Completes (execQuant q idx c s) := by
  rw [execQuant, if_pos h]
  refine unlessFaulted_elim completes_next ?_
  split <;> exact completes_next _

theorem completes_term : Completes (execTerm s) := by
  refine unlessFaulted_elim completes_next ?_
  split <;> exact completes_next _

/-- The four operations that emit are those that write FRAME, but TERM; every other that the port can carry completes, unless it is a
never code. -/
theorem exec_completes {i : Instr} (hwf : i.wellFormed s.n s.build.F = true) (hnever : isNeverCode i = false)
    (hemit : ¬ (writesFrame i = true ∧ i ≠ .term)) : Completes (exec i s) := by
  cases i with
  | permRgb | permRbg | permGrb | permGbr | permBrg | permBgr | gamma | minclk | chunk | faultRange =>
    exact unlessFaulted_elim completes_next (completes_next _)
  | orderReserved | faultNone | faultCfg | reset => exact completes_next _
  | byteNever | faultReserved => cases hnever
  | byteGamma | byteZero | latch | pixel => exact absurd ⟨rfl, nofun⟩ hemit
  | submitNow | submitAt => exact completes_submit hwf _ _
  | quant => exact completes_quant hwf _ _
  | term => exact completes_term
  | encode => exact completes_encode hwf
  | suppress ps =>
    have hexec : exec (.suppress ps) s = execSuppress ps s := rfl
    rw [hexec, execSuppress, withPixels_of_formable hwf]
    exact unlessFaulted_elim completes_next (completes_next _)
  | dispatch bs mc =>
    have hexec : exec (.dispatch bs mc) s = execDispatch bs mc s := rfl
    have hlen : 1 ≤ bs.length ∧ bs.length ≤ Config.chunkMax := by simpa [Instr.wellFormed] using hwf
    rw [hexec, execDispatch, if_pos hlen]
    exact unlessFaulted_elim completes_next (completes_next _)

/-- The operation completes, or stops at a FRAME index that does not exist (R50). -/
def CompletesOrOverruns (o : Host.Outcome State Fault Refusal) : Prop := Completes o ∨ o = .fault .frameOverrun

theorem completesOrOverruns_next (t : State) : CompletesOrOverruns (.next t) := .inl (completes_next t)

theorem completesOrOverruns_emitAll (bs : List Byte) (s : State) : CompletesOrOverruns (emitAll bs s) := by
  unfold emitAll
  split
  · exact completesOrOverruns_next _
  · exact .inr rfl

theorem completesOrOverruns_emitPixel (idx : Nat) (p : Pixel) (s : State) : CompletesOrOverruns (emitPixel idx p s) := by
  unfold emitPixel
  split
  · exact completesOrOverruns_next _
  · exact completesOrOverruns_emitAll _ _

/-- PIXEL emits at every index, one of the sequence or not (log 26). -/
theorem completesOrOverruns_pixel {ps : List Pixel} (h : pixelsFormable s.n s.build.F ps = true) (idx : Nat) :
    CompletesOrOverruns (execPixel idx ps s) := by
  rw [execPixel, withPixels_of_formable h]
  refine unlessFaulted_elim completesOrOverruns_next ?_
  split <;> exact completesOrOverruns_emitPixel _ _ _

theorem exec_completesOrOverruns {i : Instr} (hwf : i.wellFormed s.n s.build.F = true) (hwrites : writesFrame i = true)
    (hterm : i ≠ .term) : CompletesOrOverruns (exec i s) := by
  cases i with
  | byteGamma | byteZero | latch => exact unlessFaulted_elim completesOrOverruns_next (completesOrOverruns_emitAll _ _)
  | pixel => exact completesOrOverruns_pixel hwf _
  | term => exact absurd rfl hterm
  | _ => cases hwrites

end Sys2Proof.Machine

open Sys2Proof Sys2Proof.Machine

/-- Settles O8: the four operations that emit complete or overrun FRAME, every other completes. -/
theorem nothingElseStops : Obligations.NothingElseStops := by
  refine fun s i => ⟨exec_refused_of_not_wellFormed, fun hwf hnever => ?_⟩
  by_cases hemit : writesFrame i = true ∧ i ≠ .term
  · obtain ⟨hwrites, hterm⟩ := hemit
    exact (exec_completesOrOverruns hwf hwrites hterm).imp_right fun hover => ⟨hwrites, hterm, hover⟩
  · exact .inl (exec_completes hwf hnever hemit)

/-- Settles O6: both rows answer their stop without reading the state. -/
theorem neverCodesStop : Obligations.NeverCodesStop := fun _ => ⟨fun _ => rfl, rfl⟩

end

section
/-! PROOFS. The rows of the code spaces as operations: a reserved colour order (R80), the output bytes (R75), the table's codes. -/

namespace Sys2Proof.Machine

/-- The code word `11x` of a reserved colour order, as a number (R80). -/
theorem reservedOrder_eq (x : BitVec 1) : 3#2 ++ x = BitVec.ofNat 3 (6 + x.toNat) := by revert x; decide

theorem reservedOrder_toNat_gt (x : BitVec 1) : 5 < (3#2 ++ x).toNat := by revert x; decide

end Sys2Proof.Machine

open Sys2Proof Sys2Proof.Machine

/-- Settles O2: the row is RESET of the code `11x`, which is reserved, with `N` held (log 15). -/
theorem reservedOrderRaisesCfgFault : Obligations.ReservedOrderRaisesCfgFault := by
  intro s x
  have hexec : exec (.orderReserved x) s = .next (resetTo s.n (3#2 ++ x) s) := rfl
  rw [hexec, resetTo_reserved (reservedOrder_toNat_gt x), reservedOrder_eq]
  rfl

/-- Settles O20: with no fault the rows are `emitAll` of one byte, and one index of FRAME is free. -/
theorem outputByteRowsEmit : Obligations.OutputByteRowsEmit := by
  intro s hf hfree
  have emit (b : Byte) := emitAll_of_room (s := s) (bs := [b]) (by rw [frameLen_eq, List.length_singleton]; omega)
  refine ⟨fun g => ?_, (exec_byteZero_of_ok hf).trans (emit 0)⟩
  rw [exec_byteGamma_of_ok hf, gammaByteOf_eq]
  exact emit _

/-- Settles O56: the decoder evaluated on each code of the tables. -/
theorem decoderReadsTheTablesCodes : Obligations.DecoderReadsTheTablesCodes := by
  unfold Obligations.DecoderReadsTheTablesCodes
  decide

end

section
/-! PROOFS. The pixel word's fields (R72): a field is a shift and a cut of the word; and the sequences of words the decoder reads. -/

namespace Sys2Proof.Machine

/-- The bits of a field of `F+1` bits that begins at bit `j`. -/
theorem testBit_field (F v j k : Nat) :
    (v / 2 ^ j % 2 ^ (F + 1)).testBit k = (decide (k ≤ F) && v.testBit (j + k)) := by
  rw [Nat.testBit_mod_two_pow, Nat.testBit_div_two_pow, Nat.add_comm k j]
  simp

theorem unpackPixel_r_testBit (F v k : Nat) : (unpackPixel F v).r.testBit k = (decide (k ≤ F) && v.testBit k) := by
  have hr : (unpackPixel F v).r = v / 2 ^ 0 % 2 ^ (F + 1) := by simp [unpackPixel]
  rw [hr, testBit_field, Nat.zero_add]

theorem unpackPixel_g_testBit (F v k : Nat) :
    (unpackPixel F v).g.testBit k = (decide (k ≤ F) && v.testBit (F + 1 + k)) :=
  testBit_field F v (F + 1) k

theorem unpackPixel_b_testBit (F v k : Nat) :
    (unpackPixel F v).b.testBit k = (decide (k ≤ F) && v.testBit (2 * F + 2 + k)) := by
  have hb : (unpackPixel F v).b = v / 2 ^ (2 * F + 2) % 2 ^ (F + 1) := by
    simp only [unpackPixel, Nat.div_div_eq_div_mul, ← Nat.pow_add]
    congr 3; omega
  rw [hb, testBit_field]

theorem unpackPixel_w_testBit (F v k : Nat) :
    (unpackPixel F v).w.testBit k = (decide (k ≤ F) && v.testBit (3 * F + 3 + k)) := by
  have hw : (unpackPixel F v).w = v / 2 ^ (3 * F + 3) % 2 ^ (F + 1) := by
    simp only [unpackPixel, Nat.div_div_eq_div_mul, ← Nat.pow_add]
    congr 3; omega
  rw [hw, testBit_field]

end Sys2Proof.Machine

namespace Sys2Proof

open Machine

/-- Words of `4*(F+1)` bits are read one by one. -/
theorem readPixels_of_fit {F : Nat} : ∀ {vs : List Nat}, (∀ v ∈ vs, v < 2 ^ (4 * (F + 1))) →
    readPixels F vs = .ok (vs.map (unpackPixel F))
  | [], _ => rfl
  | v :: vs, h => by
    obtain ⟨hv, hvs⟩ := List.forall_mem_cons.mp h
    have hfit : pixelWordFits F v = true := decide_eq_true hv
    simp [readPixels, hfit, readPixels_of_fit hvs]

/-- One wider word refuses the whole sequence: the first such word ends the reading. -/
theorem readPixels_of_wide {F : Nat} : ∀ {vs : List Nat}, (∃ v ∈ vs, 2 ^ (4 * (F + 1)) ≤ v) →
    readPixels F vs = .error .operandRange
  | [], h => by simp at h
  | v :: vs, h => by
    unfold readPixels
    split
    · rename_i hfit
      have hv : v < 2 ^ (4 * (F + 1)) := of_decide_eq_true hfit
      obtain hwide | hwide := (List.exists_mem_cons_iff _ _ _).mp h
      · omega
      · rw [readPixels_of_wide hwide]
    · rfl

end Sys2Proof

open Sys2Proof Sys2Proof.Machine

/-- Settles O55: each code is a field of the word, cut at `F+1` bits; the sequence is read word by word. -/
theorem pixelWordFields : Obligations.PixelWordFields := by
  refine ⟨fun F v k hk => ?low, fun F v k hk => ?high, fun _ _ => readPixels_of_fit, fun _ _ => readPixels_of_wide⟩
  case low => simp [unpackPixel_r_testBit, unpackPixel_g_testBit, unpackPixel_b_testBit, unpackPixel_w_testBit, hk]
  case high =>
    have hk : ¬ k ≤ F := by omega
    simp [unpackPixel_r_testBit, unpackPixel_g_testBit, unpackPixel_b_testBit, unpackPixel_w_testBit, hk]

end

section
/-! PROOFS. The rounding of QUANT (R14, R100 to R104): `rne` is the nearest integer, ties to even; a tie of an in-range code is the code
of 0.5 only; and a code that close to `k/255` quantises to `k`. -/

namespace Sys2Proof.Machine

/-- `rne` is what rule R14 says it is. -/
theorem rne_isNearestEven (a b : Nat) (hb : 0 < b) : isNearestEven a b (rne a b) := by
  obtain ⟨q, r, ha, hr, hcases⟩ := rne_cases a b hb
  have hsucc : (q + 1) * b = q * b + b := Nat.succ_mul q b
  unfold isNearestEven
  obtain ⟨hlo, hk⟩ | ⟨hhi, hk⟩ | ⟨htie, ⟨heven, hk⟩ | ⟨hodd, hk⟩⟩ := hcases <;> rw [hk]
  · omega
  · rw [hsucc]; omega
  · omega
  · rw [hsucc]; omega

/-- QUANT's index is the `rne` of R100 itself: in range it fits a byte. -/
theorem quantIndex_eq_some_iff {F q : Nat} {k : Byte} :
    quantIndex F q = some k ↔ q ≤ 2 ^ F ∧ rne (255 * q) (2 ^ F) = k.toNat := by
  by_cases hq : q ≤ 2 ^ F
  · have hle := rne_index_le F q hq
    rw [quantIndex_inRange hq, Option.some_inj, ← BitVec.toNat_inj, BitVec.toNat_ofNat, Nat.mod_eq_of_lt (by omega)]
    simp [hq]
  · simp [quantIndex_above (Nat.lt_of_not_le hq), hq]

/-- A code at most 1.0 has `F+1` bits (R71). -/
theorem codeFits_of_le {F q : Nat} (h : q ≤ 2 ^ F) : codeFits F q = true :=
  decide_eq_true (h.trans_lt (Nat.pow_lt_pow_right (by omega) (by omega)))

/-- Half-way between `m` and `m + 1` is the code of 0.5 only: there `2^(F-1)` divides `255 * q`, and so `q`, an odd number of
times. -/
theorem quant_tie {F q m : Nat} (hF : 1 ≤ F) (hq : q ≤ 2 ^ F) (htie : 2 * (255 * q) = 2 * (m * 2 ^ F) + 2 ^ F) :
    q = 2 ^ (F - 1) ∧ m = 127 := by
  rw [← Nat.two_pow_pred_mul_two hF] at hq htie
  have hpos : 0 < 2 ^ (F - 1) := by positivity
  have hodd : 255 * q = (2 * m + 1) * 2 ^ (F - 1) := by linarith
  have hcoprime : Nat.Coprime (2 ^ (F - 1)) 255 := Nat.Coprime.pow_left _ (by decide)
  obtain ⟨c, rfl⟩ : 2 ^ (F - 1) ∣ q := hcoprime.dvd_of_dvd_mul_left ⟨2 * m + 1, by rw [hodd, Nat.mul_comm]⟩
  generalize 2 ^ (F - 1) = half at *
  have hc : c ≤ 2 := Nat.le_of_mul_le_mul_left hq hpos
  have hcm : 255 * c = 2 * m + 1 := Nat.eq_of_mul_eq_mul_left hpos (by linarith)
  obtain rfl : c = 1 := by omega
  omega

/-- R101: rounding is adding a half and cutting, for at the one tie the integer below is odd. -/
theorem rne_eq_add_half_div {F q : Nat} (hF : 1 ≤ F) (hq : q ≤ 2 ^ F) :
    rne (255 * q) (2 ^ F) = (255 * q + 2 ^ (F - 1)) / 2 ^ F := by
  obtain ⟨k, r, ha, hr, hcases⟩ := rne_cases (255 * q) (2 ^ F) (by positivity)
  have hhalf := Nat.two_pow_pred_mul_two hF
  have hsucc : (k + 1) * 2 ^ F = k * 2 ^ F + 2 ^ F := Nat.succ_mul _ _
  have hsucc2 : (k + 1 + 1) * 2 ^ F = (k + 1) * 2 ^ F + 2 ^ F := Nat.succ_mul _ _
  obtain ⟨hlo, hk⟩ | ⟨hhi, hk⟩ | ⟨htie, ⟨heven, hk⟩ | ⟨hodd, hk⟩⟩ := hcases <;> rw [hk]
  · exact (Nat.div_eq_of_lt_le (by omega) (by omega)).symm
  · exact (Nat.div_eq_of_lt_le (by omega) (by omega)).symm
  · obtain ⟨-, rfl⟩ := quant_tie (m := k) hF hq (by omega)
    omega
  · exact (Nat.div_eq_of_lt_le (by omega) (by omega)).symm

/-- The canonical code of an index (R104) is less than half an index step from it: 255 codes are at most `2^F`. -/
theorem quantIndex_canonical {F : Nat} (hF : 8 ≤ F) (k : Byte) : quantIndex F (rne (k.toNat * 2 ^ F) 255) = some k := by
  obtain ⟨hlo, hhi, -⟩ := rne_isNearestEven (k.toNat * 2 ^ F) 255 (by omega)
  generalize rne (k.toNat * 2 ^ F) 255 = code at *
  have hstep : 2 ^ 8 ≤ 2 ^ F := Nat.pow_le_pow_right (by omega) hF
  have hmul : k.toNat * 2 ^ F ≤ 255 * 2 ^ F := Nat.mul_le_mul_right _ (by have := k.isLt; omega)
  exact quantIndex_eq_some_iff.mpr ⟨by omega, rne_eq_of_near (by omega) (by omega) (by omega)⟩

/-- Below 8 fraction bits one code step is more than one and a half indices. -/
theorem quantIndex_ne_one {F : Nat} (hF : F < 8) (q : Nat) : quantIndex F q ≠ some 1 := by
  intro h
  obtain ⟨-, hk⟩ := quantIndex_eq_some_iff.mp h
  have hpos : 0 < 2 ^ F := by positivity
  have hstep : 2 ^ F ≤ 2 ^ 7 := Nat.pow_le_pow_right (by omega) (by omega)
  obtain ⟨hlo, hhi, -⟩ := rne_isNearestEven (255 * q) (2 ^ F) hpos
  have hone : rne (255 * q) (2 ^ F) = 1 := hk
  rw [hone] at hlo hhi
  omega

end Sys2Proof.Machine

open Sys2Proof Sys2Proof.Machine

/-- Settles O10: a cut by `F` bits is a division by `2^F`. -/
theorem quantIntegerForm : Obligations.QuantIntegerForm := by
  intro F q hF hq
  rw [rne_eq_add_half_div hF hq, Nat.shiftRight_eq_div_pow]

/-- Settles O11: the code of 0.5 is 127.5 indices. -/
theorem quantTiesOnlyAtOneHalf : Obligations.QuantTiesOnlyAtOneHalf := by
  intro F q hF hq
  have hdouble := Nat.two_pow_pred_mul_two hF
  have hpos : 0 < 2 ^ (F - 1) := by positivity
  refine ⟨⟨fun ⟨m, htie⟩ => (quant_tie hF hq htie).1, ?half⟩, quantIndex_eq_some_iff.mpr ⟨by omega, ?index⟩⟩
  case half =>
    rintro rfl
    exact ⟨127, by omega⟩
  case index =>
    rw [rne_eq_add_half_div hF (by omega), ← hdouble]
    exact Nat.div_eq_of_lt_le (by simp; omega) (by simp; omega)

/-- Settles O12: index 1 is the one not reached below `F = 8`. -/
theorem canonicalCodesReachEveryIndex : Obligations.CanonicalCodesReachEveryIndex := by
  refine ⟨fun F k hF => ?canonical, fun k => ?closedForm, fun F hF => ⟨1, quantIndex_ne_one hF⟩⟩
  case canonical =>
    have hk := quantIndex_canonical hF k
    exact ⟨(quantIndex_eq_some_iff.mp hk).1, hk⟩
  case closedForm =>
    have hlt := k.isLt
    split <;> exact rne_eq_of_near (by omega) (by omega) (by omega)

end

section
/-! PROOFS. QUANT and GAMMA as operations (R100, R103, R105). -/

namespace Sys2Proof.Machine

variable {s : State}

/-- With no fault recorded QUANT of an in-range code answers its index, whatever the pixel index. -/
theorem exec_quant_of_index (hf : s.fault = 0) {q : Nat} {k : Byte} (hk : quantIndex s.build.F q = some k) (idx : Nat)
    (c : Channel) : exec (.quant q idx c) s = .next (s.setResult (.index k)) := by
  have hexec : exec (.quant q idx c) s = execQuant q idx c s := rfl
  have hfits : codeFits s.build.F q = true := codeFits_of_le (quantIndex_eq_some_iff.mp hk).1
  rw [hexec, execQuant, if_pos hfits, unlessFaulted_of_ok hf, hk]

/-- With no fault recorded QUANT of a code above `2^F` raises. -/
theorem exec_quant_above (hf : s.fault = 0) {q : Nat} (hq : q < 2 ^ (s.build.F + 1)) (habove : 2 ^ s.build.F < q) (idx : Nat)
    (c : Channel) : exec (.quant q idx c) s = .next (raisePresented (.range idx c) s) := by
  have hexec : exec (.quant q idx c) s = execQuant q idx c s := rfl
  have hfits : codeFits s.build.F q = true := decide_eq_true hq
  rw [hexec, execQuant, if_pos hfits, unlessFaulted_of_ok hf, quantIndex_above habove]

theorem exec_gamma_of_ok (hf : s.fault = 0) (k : Byte) : exec (.gamma k) s = .next (s.setResult (.byte (gammaRead s k))) :=
  unlessFaulted_of_ok hf

end Sys2Proof.Machine

open Sys2Proof Sys2Proof.Machine

/-- Settles O9: the index is `rne`, and a raise at a pixel index of the sequence records that index. -/
theorem quantGivesNearestIndexOrRangeFault : Obligations.QuantGivesNearestIndexOrRangeFault := by
  intro s q idx c hf hq
  refine ⟨fun hin => ?inRange, fun habove hidx => ?above⟩
  case inRange =>
    have hk := quantIndex_inRange hin
    refine ⟨_, ?_, exec_quant_of_index hf hk idx c⟩
    rw [← (quantIndex_eq_some_iff.mp hk).2]
    exact rne_isNearestEven _ _ (by positivity)
  case above =>
    rw [exec_quant_above hf hq habove, raisePresented_of_lt hidx, raise_range hf]
    rfl

/-- Settles O58: the position of the raise is `freeIndex`. -/
theorem quantOutsideTheSequenceReportsAFreePosition : Obligations.QuantOutsideTheSequenceReportsAFreePosition := by
  intro s q idx c hf hq habove hidx
  refine ⟨freeIndex s, freeIndex_lt, ?_⟩
  rw [exec_quant_above hf hq habove, raisePresented_of_ge hf hidx]
  rfl

end

section
/-! PROOFS. The ROM's table against the power law (R14, R105): both sides of "less than 1/2 away" squared and cleared of their
denominators, they are inequalities of naturals, checked over the 256 entries. -/

namespace Sys2Proof.Machine

/-- A byte with the top bit set is `0x80 | g` of its low seven bits. -/
theorem byte_eq_of_topBit : ∀ b : Byte, b &&& 0x80 = 0x80 → b = 0x80#8 ||| (b.setWidth 7).zeroExtend 8 := by decide

/-- The low seven bits of an entry. -/
def gammaLow (k : Byte) : BitVec 7 := (gammaTable[k.toNat]'k.isLt).setWidth 7

theorem gammaRead_eq_gammaLow {s : State} (h : s.gamma = gammaTable) (k : Byte) :
    gammaRead s k = 0x80#8 ||| (gammaLow k).zeroExtend 8 := by
  rw [byte_eq_of_topBit _ (gammaRead_topBit h k), gammaLow, gammaRead]
  simp only [h]

theorem gammaLow_nearest : ∀ k : Byte,
    4 * 127 ^ 2 * k.toNat ^ 5 < (2 * (gammaLow k).toNat + 1) ^ 2 * 255 ^ 5 ∧
      ((gammaLow k).toNat = 0 ∨ (2 * (gammaLow k).toNat - 1) ^ 2 * 255 ^ 5 < 4 * 127 ^ 2 * k.toNat ^ 5) := by
  decide +kernel

/-- `127 * pow25(k/255)` (R14, R105). -/
noncomputable def gammaCurve (k : Nat) : ℝ := 127 * ((k : ℝ) / 255 * ((k : ℝ) / 255) * Real.sqrt ((k : ℝ) / 255))

theorem gammaCurve_nonneg (k : Nat) : 0 ≤ gammaCurve k := by unfold gammaCurve; positivity

theorem sq_two_mul_gammaCurve (k : Nat) : (2 * gammaCurve k) ^ 2 * 255 ^ 5 = 4 * 127 ^ 2 * (k : ℝ) ^ 5 := by
  have hsqrt : Real.sqrt ((k : ℝ) / 255) ^ 2 = (k : ℝ) / 255 := Real.sq_sqrt (by positivity)
  rw [gammaCurve, mul_pow, mul_pow, mul_pow, hsqrt]
  ring

theorem two_mul_gammaCurve_lt_iff (k m : Nat) : 2 * gammaCurve k < m ↔ 4 * 127 ^ 2 * k ^ 5 < m ^ 2 * 255 ^ 5 := by
  have hcurve := gammaCurve_nonneg k
  rw [← pow_lt_pow_iff_left₀ (by positivity) (by positivity) two_ne_zero,
    ← mul_lt_mul_iff_left₀ (show (0 : ℝ) < 255 ^ 5 by positivity), sq_two_mul_gammaCurve]
  exact_mod_cast Iff.rfl

theorem lt_two_mul_gammaCurve_iff (k m : Nat) : m < 2 * gammaCurve k ↔ m ^ 2 * 255 ^ 5 < 4 * 127 ^ 2 * k ^ 5 := by
  have hcurve := gammaCurve_nonneg k
  rw [← pow_lt_pow_iff_left₀ (by positivity) (by positivity) two_ne_zero,
    ← mul_lt_mul_iff_left₀ (show (0 : ℝ) < 255 ^ 5 by positivity), sq_two_mul_gammaCurve]
  exact_mod_cast Iff.rfl

theorem abs_gammaCurve_sub_gammaLow_lt (k : Byte) : |gammaCurve k.toNat - ((gammaLow k).toNat : ℝ)| < 1 / 2 := by
  obtain ⟨hhi, hlo⟩ := gammaLow_nearest k
  generalize (gammaLow k).toNat = g at *
  have habove := (two_mul_gammaCurve_lt_iff _ _).mpr hhi
  have hbelow : 2 * (g : ℝ) - 1 < 2 * gammaCurve k.toNat := by
    obtain hzero | hlo := hlo
    · have hcurve := gammaCurve_nonneg k.toNat
      rw [hzero]; push_cast; linarith
    · refine lt_of_le_of_lt ?_ ((lt_two_mul_gammaCurve_iff _ _).mpr hlo)
      rw [sub_le_iff_le_add]
      exact_mod_cast (by omega : 2 * g ≤ 2 * g - 1 + 1)
  push_cast at habove
  rw [abs_lt]
  constructor <;> linarith

end Sys2Proof.Machine

open Sys2Proof Sys2Proof.Machine

/-- Settles O13: `g` is the low seven bits of the entry. -/
theorem gammaReturnsThePowerLawByte : Obligations.GammaReturnsThePowerLawByte := by
  intro s k hf hrom
  refine ⟨gammaLow k, abs_gammaCurve_sub_gammaLow_lt k, ?_⟩
  rw [exec_gamma_of_ok hf, gammaRead_eq_gammaLow hrom]
  rfl

end

section
/-! PROOFS. The gamma table's order and values (R107), and two sequences that encode alike: for an in-range sequence ENCODE answers
`frameOf`, which reads a pixel through its gamma bytes only. -/

namespace Sys2Proof.Machine

theorem gammaTable_monotone : Monotone fun i : Fin 256 => gammaTable[i].toNat :=
  Fin.monotone_iff_le_succ.mpr gammaTable_adjacent

theorem ne_zero_of_topBit {b : Byte} (h : b &&& 0x80 = 0x80) : b ≠ 0 := by
  rintro rfl
  revert h; decide

/-- A byte of the table (R107): of the gamma class, and not one of the four the curve steps over. -/
def gammaValue (b : Byte) : Bool :=
  decide (0x80 ≤ b.toNat ∧ b ≠ 0xE7 ∧ b ≠ 0xF0 ∧ b ≠ 0xF7 ∧ b ≠ 0xFC)

theorem gammaTable_gammaValue : ∀ i : Fin 256, gammaValue gammaTable[i] = true := by decide +kernel

theorem mem_gammaBytes_of_gammaValue : ∀ b : Byte, gammaValue b = true → b ∈ gammaBytes := by decide +kernel

theorem exists_gammaTable_eq_iff (b : Byte) : (∃ i : Fin 256, gammaTable[i] = b) ↔ gammaValue b = true := by
  refine ⟨?_, fun hb => ?_⟩
  · rintro ⟨i, rfl⟩
    exact gammaTable_gammaValue i
  · have hmem : b ∈ gammaTable := by simpa [gammaTable] using mem_gammaBytes_of_gammaValue b hb
    obtain ⟨i, hlt, hi⟩ := Vector.mem_iff_getElem.mp hmem
    exact ⟨⟨i, hlt⟩, hi⟩

/-- ENCODE of an in-range sequence with no fault recorded, under a legal `ORDER`: the closed form of R143. -/
theorem exec_encode_inRange {s : State} {ps : List Pixel} (hf : s.fault = 0) (ho : s.order.toNat ≤ 5)
    (hps : pixelsFormable s.n s.build.F ps = true) (hr : ∀ p ∈ ps, inRange s.build.F p) :
    exec (.encode ps) s = .next ((s.clearFrame.pushFrame (frameOf s ps)).setResult (.frame (frameOf s ps))) := by
  have hexec : exec (.encode ps) s = execEncode ps s := rfl
  rw [hexec, execEncode, withPixels_of_formable hps, unlessFaulted_of_ok hf,
    encodeFrame_inRange ho (pixelsFormable_length hps) hr]

/-- A pixel of an in-range red code and no other colour. -/
def redPixel (code : Nat) : Pixel := ⟨code, 0, 0, 0⟩

theorem redPixel_inRange {F code : Nat} (h : code ≤ 2 ^ F) : inRange F (redPixel code) := ⟨h, Nat.zero_le _, Nat.zero_le _⟩

theorem redPixel_fits {F code : Nat} (h : code ≤ 2 ^ F) : pixelFits F (redPixel code) = true := by
  simp [pixelFits, redPixel, codeFits_of_le h, codeFits_of_le (Nat.zero_le _)]

/-- `N` pixels, the first of them of a red code and the others black. -/
def redFirst (n code : Nat) : List Pixel := redPixel code :: List.replicate (n - 1) (redPixel 0)

theorem mem_redFirst {n code : Nat} {p : Pixel} (h : p ∈ redFirst n code) : p = redPixel code ∨ p = redPixel 0 :=
  (List.mem_cons.mp h).imp id List.eq_of_mem_replicate

theorem redFirst_inRange {n F code : Nat} (h : code ≤ 2 ^ F) : ∀ p ∈ redFirst n code, inRange F p := by
  intro p hp
  obtain rfl | rfl := mem_redFirst hp
  · exact redPixel_inRange h
  · exact redPixel_inRange (Nat.zero_le _)

theorem redFirst_formable {n F code : Nat} (hn : 1 ≤ n) (h : code ≤ 2 ^ F) : pixelsFormable n F (redFirst n code) = true := by
  simp only [pixelsFormable, Bool.and_eq_true, decide_eq_true_eq, List.all_eq_true]
  refine ⟨by simp [redFirst]; omega, fun p hp => ?_⟩
  obtain rfl | rfl := mem_redFirst hp
  · exact redPixel_fits h
  · exact redPixel_fits (Nat.zero_le _)

theorem redFirst_dropLast {n code : Nat} (hn : 2 ≤ n) :
    (redFirst n code).dropLast = redPixel code :: List.replicate (n - 2) (redPixel 0) := by
  obtain ⟨m, rfl⟩ := Nat.exists_eq_add_of_le' hn
  simp [redFirst, List.replicate_succ]

theorem redFirst_dropLast_head {n code : Nat} (hn : 2 ≤ n) : (redFirst n code).dropLast[0]? = some (redPixel code) := by
  rw [redFirst_dropLast hn]; rfl

theorem quantIndex_zero (F : Nat) : quantIndex F 0 = some 0 := by simp [quantIndex, rne]

/-- Two red codes whose indices have one byte give one frame. -/
theorem frameOf_redFirst_congr {s : State} {a b : Nat} {i j : Byte} (hn : 2 ≤ s.n) (ha : quantIndex s.build.F a = some i)
    (hb : quantIndex s.build.F b = some j) (hij : gammaRead s i = gammaRead s j) :
    frameOf s (redFirst s.n a) = frameOf s (redFirst s.n b) := by
  have htriple : tripleOf s (redPixel a) = tripleOf s (redPixel b) := by
    simp only [tripleOf, redPixel, ha, hb, hij, quantIndex_zero]
  simp only [frameOf, redFirst_dropLast hn, List.flatMap_cons, htriple]

/-- From `F = 8` on indices 0 and 1, whose byte is the same, each have a code; the two red codes encode alike. -/
theorem exists_distinct_indices_encode_alike {s : State} (hf : s.fault = 0) (ho : s.order.toNat ≤ 5) (hrom : s.gamma = gammaTable)
    (hn : 2 ≤ s.n) (hF : 8 ≤ s.build.F) :
    ∃ code, code ≤ 2 ^ s.build.F ∧ quantIndex s.build.F 0 ≠ quantIndex s.build.F code ∧
      ∃ t f, exec (.encode (redFirst s.n 0)) s = .next t ∧ exec (.encode (redFirst s.n code)) s = .next t ∧
        t.result = .frame f := by
  have hzero := quantIndex_zero s.build.F
  have hone := quantIndex_canonical hF 1
  generalize rne ((1 : Byte).toNat * 2 ^ s.build.F) 255 = code at hone
  have hcode : code ≤ 2 ^ s.build.F := (quantIndex_eq_some_iff.mp hone).1
  have hbyte : gammaRead s 1 = gammaRead s 0 := by simp only [gammaRead, hrom]; rfl
  have hencode (c : Nat) (hc : c ≤ 2 ^ s.build.F) :=
    exec_encode_inRange hf ho (redFirst_formable (by omega) hc) (redFirst_inRange hc)
  refine ⟨code, hcode, by simp [hzero, hone], _, _, hencode 0 (Nat.zero_le _), ?_, rfl⟩
  rw [hencode code hcode, frameOf_redFirst_congr hn hone hzero hbyte]

end Sys2Proof.Machine

open Sys2Proof Sys2Proof.Machine

/-- Settles O14: the last clause by a black first pixel and one of the red code of index 1. -/
theorem gammaTableShape : Obligations.GammaTableShape := by
  refine ⟨fun i j hij => gammaTable_monotone hij.le, fun i => ?topBit,
    fun b => (exists_gammaTable_eq_iff b).trans decide_eq_true_iff, ⟨0, 1, by decide, rfl⟩,
    fun s hf ho hrom hn hF => ?encode⟩
  case topBit =>
    have htop : gammaTable[i] &&& 0x80 = 0x80 := gammaTable_topBit (BitVec.ofFin i)
    exact ⟨htop, ne_zero_of_topBit htop⟩
  case encode =>
    obtain ⟨code, hcode, hindex, t, f, hblack, hred, hframe⟩ := exists_distinct_indices_encode_alike hf ho hrom hn hF
    have hzero : 0 ≤ 2 ^ s.build.F := Nat.zero_le _
    exact ⟨redFirst s.n 0, redFirst s.n code, redPixel 0, redPixel code, t, f,
      redFirst_formable (by omega) hzero, redFirst_formable (by omega) hcode,
      fun p hp => (List.mem_append.mp hp).elim (redFirst_inRange hzero p) (redFirst_inRange hcode p),
      redFirst_dropLast_head hn, redFirst_dropLast_head hn, hindex, hblack, hred, hframe⟩

end

section
/-! PROOFS. ENCODE reads a pixel through its R, G and B codes only (R110). -/

namespace Sys2Proof.Machine

theorem pixelBytes_congr_rgb (s : State) (idx : Nat) {p q : Pixel} (h : (p.r, p.g, p.b) = (q.r, q.g, q.b)) :
    pixelBytes s idx p = pixelBytes s idx q := by
  simp only [Prod.mk.injEq] at h
  obtain ⟨hr, hg, hb⟩ := h
  simp only [pixelBytes, hr, hg, hb]

theorem dataBytes_congr_rgb (s : State) : ∀ {ps qs : List Pixel} (idx : Nat),
    ps.map (fun p => (p.r, p.g, p.b)) = qs.map (fun p => (p.r, p.g, p.b)) → dataBytes s idx ps = dataBytes s idx qs
  | [], [], _, _ => rfl
  | p :: ps, q :: qs, idx, h => by
    obtain ⟨hpq, hrest⟩ := List.cons_eq_cons.mp h
    simp only [dataBytes, pixelBytes_congr_rgb s idx hpq, dataBytes_congr_rgb s (idx + 1) hrest]

end Sys2Proof.Machine

open Sys2Proof Sys2Proof.Machine

/-- Settles O32: the port carries both, and ENCODE's data bytes are the same. -/
theorem whiteChannelNeverReachesTheFrame : Obligations.WhiteChannelNeverReachesTheFrame := by
  intro s ps qs hps hqs hrgb
  have hframe : encodeFrame s ps = encodeFrame s qs := by
    simp only [encodeFrame, dataBytes_congr_rgb s 0 hrgb]
  have hexec (xs : List Pixel) : exec (.encode xs) s = execEncode xs s := rfl
  rw [hexec, hexec, execEncode, execEncode, withPixels_of_formable hps, withPixels_of_formable hqs, hframe]

end

section
/-! PROOFS. The permutations (R121 to R129): each row of either table rearranges its three bytes, and a PERM with no fault recorded
returns its row. -/

namespace Sys2Proof.Machine

variable {s : State} (t : PermTable) (gr gg gb : Byte)

/-! ## Each row is a rearrangement -/

theorem permRgb_perm : (permRgb t gr gg gb).bytes.Perm [gr, gg, gb] :=
  match t with
  | .reference => .swap gr gg [gb]
  | .asNamed => .refl _

theorem permRbg_perm : (permRbg t gr gg gb).bytes.Perm [gr, gg, gb] :=
  match t with
  | .reference | .asNamed => (List.Perm.swap gg gb []).cons gr

theorem permGrb_perm : (permGrb t gr gg gb).bytes.Perm [gr, gg, gb] :=
  match t with
  | .reference => List.perm_append_singleton gr [gg, gb]
  | .asNamed => .swap gr gg [gb]

theorem permGbr_perm : (permGbr t gr gg gb).bytes.Perm [gr, gg, gb] :=
  match t with
  | .reference | .asNamed => List.perm_append_singleton gr [gg, gb]

theorem permBrg_perm : (permBrg t gr gg gb).bytes.Perm [gr, gg, gb] :=
  match t with
  | .reference | .asNamed => (List.perm_append_singleton gb [gr, gg]).symm

theorem permBgr_perm : (permBgr t gr gg gb).bytes.Perm [gr, gg, gb] :=
  match t with
  | .reference | .asNamed => List.reverse_perm [gr, gg, gb]

variable {t gr gg gb}

/-- Whatever triple a code selects, it is the three bytes rearranged. -/
theorem permute_perm {order : BitVec 3} {tr : Triple} (h : permute t order gr gg gb = some tr) :
    tr.bytes.Perm [gr, gg, gb] := by
  unfold permute at h
  generalize order.toNat = o at h
  match o, h with
  | 0, rfl => exact permRgb_perm t gr gg gb
  | 1, rfl => exact permRbg_perm t gr gg gb
  | 2, rfl => exact permGrb_perm t gr gg gb
  | 3, rfl => exact permGbr_perm t gr gg gb
  | 4, rfl => exact permBrg_perm t gr gg gb
  | 5, rfl => exact permBgr_perm t gr gg gb

/-- A reserved code selects no triple (R80). -/
theorem permute_reserved {order : BitVec 3} (h : 5 < order.toNat) : permute t order gr gg gb = none := by
  have hcode : ∀ o : BitVec 3, 5 < o.toNat → o = 6 ∨ o = 7 := by decide
  obtain rfl | rfl := hcode order h <;> rfl

/-! ## Each operation returns its row -/

theorem exec_permRgb_of_ok (hf : s.fault = 0) :
    exec (.permRgb gr gg gb) s = .next (returnTriple (permRgb s.build.permTable gr gg gb) s) := unlessFaulted_of_ok hf

theorem exec_permRbg_of_ok (hf : s.fault = 0) :
    exec (.permRbg gr gg gb) s = .next (returnTriple (permRbg s.build.permTable gr gg gb) s) := unlessFaulted_of_ok hf

theorem exec_permGrb_of_ok (hf : s.fault = 0) :
    exec (.permGrb gr gg gb) s = .next (returnTriple (permGrb s.build.permTable gr gg gb) s) := unlessFaulted_of_ok hf

theorem exec_permGbr_of_ok (hf : s.fault = 0) :
    exec (.permGbr gr gg gb) s = .next (returnTriple (permGbr s.build.permTable gr gg gb) s) := unlessFaulted_of_ok hf

theorem exec_permBrg_of_ok (hf : s.fault = 0) :
    exec (.permBrg gr gg gb) s = .next (returnTriple (permBrg s.build.permTable gr gg gb) s) := unlessFaulted_of_ok hf

theorem exec_permBgr_of_ok (hf : s.fault = 0) :
    exec (.permBgr gr gg gb) s = .next (returnTriple (permBgr s.build.permTable gr gg gb) s) := unlessFaulted_of_ok hf

/-! ## Three distinct bytes tell the arrangements of the reference table apart -/

theorem permute_reference_eq_on_distinct : ∀ a b : BitVec 3, a.toNat ≤ 5 → b.toNat ≤ 5 → a ≠ b →
    permute .reference a 0x80 0x81 0x82 = permute .reference b 0x80 0x81 0x82 → a = 2 ∧ b = 3 ∨ a = 3 ∧ b = 2 := by decide

theorem permute_reference_ne_identity : ∀ a : BitVec 3,
    permute .reference a 0x80 0x81 0x82 ≠ some ⟨0x80, 0x81, 0x82⟩ := by decide

theorem permute_reference_greenRedBlue : ∀ a : BitVec 3,
    permute .reference a 0x80 0x81 0x82 = some ⟨0x81, 0x80, 0x82⟩ → a = 0 := by decide

end Sys2Proof.Machine

open Sys2Proof Sys2Proof.Machine

/-- Settles O17: a legal code selects a triple, and each row rearranges its bytes. -/
theorem permIsARearrangement : Obligations.PermIsARearrangement := by
  intro t order gr gg gb
  refine ⟨fun hlegal => ?_, permute_reserved⟩
  obtain ⟨tr, htr⟩ := permute_legal hlegal t gr gg gb
  exact ⟨tr, htr, permute_perm htr⟩

/-- Settles O15: each PERM returns its row of the table in force, here R121 to R126. -/
theorem permOperationsFollowTheReferenceTable : Obligations.PermOperationsFollowTheReferenceTable := by
  intro s gr gg gb hf ht
  rw [exec_permRgb_of_ok hf, exec_permRbg_of_ok hf, exec_permGrb_of_ok hf, exec_permGbr_of_ok hf, exec_permBrg_of_ok hf,
    exec_permBgr_of_ok hf, ht]
  exact ⟨rfl, rfl, rfl, rfl, rfl, rfl⟩

/-- Settles O16: each PERM returns its row of the table in force, here R127. -/
theorem permOperationsAsNamed : Obligations.PermOperationsAsNamed := by
  intro s gr gg gb hf ht
  rw [exec_permRgb_of_ok hf, exec_permRbg_of_ok hf, exec_permGrb_of_ok hf, exec_permGbr_of_ok hf, exec_permBrg_of_ok hf,
    exec_permBgr_of_ok hf, ht]
  exact ⟨rfl, rfl, rfl, rfl, rfl, rfl⟩

/-- Settles O18: the rows are read off the table; that no others agree is seen on three distinct bytes. -/
theorem referenceTableDuplication : Obligations.ReferenceTableDuplication := by
  refine ⟨fun gr gg gb => ⟨rfl, rfl, rfl, rfl, rfl, rfl⟩, fun gr gg gb => rfl, fun a b ha hb hne hagree => ?distinct,
    fun a hall => ?noIdentity, fun a => ⟨fun hall => ?onlyZero, ?zero⟩⟩
  case distinct => exact permute_reference_eq_on_distinct a b ha hb hne (hagree _ _ _)
  case noIdentity => exact permute_reference_ne_identity a (hall _ _ _)
  case onlyZero => exact permute_reference_greenRedBlue a (hall _ _ _)
  case zero =>
    rintro rfl gr gg gb
    rfl

end

section
/-! PROOFS. The operations that take a pixel sequence refuse one of another length (R150, R74). -/

namespace Sys2Proof.Machine

theorem withPixels_of_length_ne {s : State} {ps : List Pixel} {k : Host.Outcome State Fault Refusal} (h : ps.length ≠ s.n) :
    withPixels s ps k = .refused .pixelCount := by
  rw [withPixels, pixelsRefusal, if_pos h]

end Sys2Proof.Machine

open Sys2Proof Sys2Proof.Machine

/-- Settles O7: all five check the sequence first. -/
theorem otherLengthsAreRefused : Obligations.OtherLengthsAreRefused := fun _ _ h =>
  ⟨withPixels_of_length_ne h, withPixels_of_length_ne h, fun _ => withPixels_of_length_ne h, withPixels_of_length_ne h,
    fun _ => withPixels_of_length_ne h⟩

end

section
/-! PROOFS. LATCH, PIXEL and TERM performed on their own with no fault recorded (R140 to R142). -/

namespace Sys2Proof.Machine

variable {s : State}

/-- The triple of an in-range pixel under a legal `ORDER`, from its three gamma indices (R141). -/
theorem tripleOf_inRange {p : Pixel} (ho : s.order.toNat ≤ 5) (hp : inRange s.build.F p) :
    ∃ kr kg kb t, quantIndex s.build.F p.r = some kr ∧ quantIndex s.build.F p.g = some kg ∧
      quantIndex s.build.F p.b = some kb ∧
      permute s.build.permTable s.order (gammaRead s kr) (gammaRead s kg) (gammaRead s kb) = some t ∧
      tripleOf s p = t.bytes := by
  obtain ⟨hr, hg, hb⟩ := hp
  obtain ⟨kr, hkr⟩ : ∃ k, quantIndex s.build.F p.r = some k := ⟨_, quantIndex_inRange hr⟩
  obtain ⟨kg, hkg⟩ : ∃ k, quantIndex s.build.F p.g = some k := ⟨_, quantIndex_inRange hg⟩
  obtain ⟨kb, hkb⟩ : ∃ k, quantIndex s.build.F p.b = some k := ⟨_, quantIndex_inRange hb⟩
  obtain ⟨t, ht⟩ := permute_legal ho s.build.permTable (gammaRead s kr) (gammaRead s kg) (gammaRead s kb)
  exact ⟨kr, kg, kb, t, hkr, hkg, hkb, ht, by simp only [tripleOf, hkr, hkg, hkb, ht]⟩

/-- A pixel with a bad channel raises for the first. -/
theorem emitPixel_bad {p : Pixel} {c : Channel} (h : firstBadChannel s.build.F p = some c) (idx : Nat) :
    emitPixel idx p s = .next (raisePresented (.range idx c) s) := by
  rw [emitPixel, pixelBytes_bad h]

/-- The pixels of a formable sequence stand at the indices below `N`. -/
theorem lt_n_of_getElem? {n F : Nat} {ps : List Pixel} (hps : pixelsFormable n F ps = true) {idx : Nat} {p : Pixel}
    (hp : ps[idx]? = some p) : idx < n := by
  obtain ⟨hlt, -⟩ := List.getElem?_eq_some_iff.mp hp
  rwa [pixelsFormable_length hps] at hlt

/-- PIXEL at an index the sequence does not have is PIXEL on a free pixel (log 26). -/
theorem exec_pixel_of_ge (hf : s.fault = 0) {ps : List Pixel} (hps : pixelsFormable s.n s.build.F ps = true) {idx : Nat}
    (hidx : s.n ≤ idx) : exec (.pixel idx ps) s = emitPixel idx (freePixel s) s.draw := by
  have hexec : exec (.pixel idx ps) s = execPixel idx ps s := rfl
  have hnone : ps[idx]? = none := List.getElem?_eq_none (by rwa [pixelsFormable_length hps])
  rw [hexec, execPixel, withPixels_of_formable hps, unlessFaulted_of_ok hf, hnone]

theorem exec_pixel_of_bytes (hf : s.fault = 0) {ps : List Pixel} (hps : pixelsFormable s.n s.build.F ps = true) {idx : Nat}
    {p : Pixel} (hp : ps[idx]? = some p) {bs : List Byte} (hb : pixelBytes s idx p = .ok bs) :
    exec (.pixel idx ps) s = emitAll bs s := by
  rw [exec_pixel_of_getElem? hf hps hp, emitPixel, hb]

theorem exec_pixel_of_raise (hf : s.fault = 0) {ps : List Pixel} (hps : pixelsFormable s.n s.build.F ps = true) {idx : Nat}
    {p : Pixel} (hp : ps[idx]? = some p) {e : Raise} (he : pixelBytes s idx p = .error e) :
    exec (.pixel idx ps) s = .next (raise e s) := by
  rw [exec_pixel_of_getElem? hf hps hp, emitPixel, he, ← raisePresented_pixelBytes (lt_n_of_getElem? hps hp) he]

theorem exec_term_of_leds (hf : s.fault = 0) (hn : 1 ≤ s.n) : exec .term s = .next ((termStores s).setResult .nothing) := by
  have hexec : exec .term s = execTerm s := rfl
  rw [hexec, execTerm, unlessFaulted_of_ok hf, if_neg (by omega)]

theorem exec_term_of_no_leds (hf : s.fault = 0) (hn : s.n = 0) : exec .term s = .next (s.setResult .nothing) := by
  have hexec : exec .term s = execTerm s := rfl
  rw [hexec, execTerm, unlessFaulted_of_ok hf, if_pos hn]

/-- TERM on a FRAME emitted to its end, with `N = 0` the empty one. -/
theorem exec_term_of_full (hf : s.fault = 0) (hfull : s.frame.length = frameLen s.n) :
    exec .term s = .next { s with frame := termWrite s.n s.frame, result := .nothing } := by
  by_cases hn : s.n = 0
  · have hnil : s.frame = [] := List.length_eq_zero_iff.mp (by rw [hfull, hn]; rfl)
    rw [exec_term_of_no_leds hf hn, hnil, termWrite, List.set_nil, List.set_nil, List.set_nil, ← hnil]
    rfl
  · rw [exec_term_of_leds hf (by omega), termStores_full (by omega) hfull]
    rfl

end Sys2Proof.Machine

open Sys2Proof Sys2Proof.Machine

/-- Settles O19: `L` indices of FRAME are left. -/
theorem latchEmitsZeroBytes : Obligations.LatchEmitsZeroBytes := by
  intro s hf hroom
  have hlen : (latchBytes s.n).length = (s.n + 31) / 32 := by rw [latchBytes_length, latchLen_eq]
  rw [exec_latch_of_ok hf, emitAll_of_room (by rw [hlen, frameLen_eq]; omega), hlen, latchBytes, latchLen_eq]

/-- Settles O21: the pixel's triple is emitted; emitted at the end of `L + 3*i` bytes it stands from that index on. -/
theorem pixelEmitsItsTriple : Obligations.PixelEmitsItsTriple := by
  intro s ps idx p hf ho hps hp hin hroom
  obtain ⟨kr, kg, kb, t, hkr, hkg, hkb, ht, hbytes⟩ := tripleOf_inRange ho hin
  refine ⟨kr, kg, kb, t, hkr, hkg, hkb, ht, ?emits, fun hat => ?placed⟩
  case emits =>
    rw [exec_pixel_of_getElem? hf hps hp, emitPixel_inRange ho hin, hbytes]
    exact emitAll_of_room (by rw [frameLen_eq]; exact hroom)
  case placed =>
    rw [← hat]
    simp

/-- Settles O22: the index is one of the sequence's, so the raise records it. -/
theorem pixelFaultsAtItsFirstBadChannel : Obligations.PixelFaultsAtItsFirstBadChannel := by
  intro s ps idx p c hf hps hp hbad
  rw [exec_pixel_of_getElem? hf hps hp, emitPixel_bad hbad, raisePresented_of_lt (lt_n_of_getElem? hps hp), raise_range hf]
  rfl

/-- Settles O57: the pixel is `freePixel`, the position of its raise `freeIndex` after the draw. -/
theorem pixelOutsideTheSequenceRunsOnAFreePixel : Obligations.PixelOutsideTheSequenceRunsOnAFreePixel := by
  intro s ps idx hf ho hps hidx
  have hexec := exec_pixel_of_ge hf hps hidx
  refine ⟨freePixel s, freePixel_fits s, fun hin => ?inRange,
    fun c hbad => ⟨freeIndex s.draw, freeIndex_lt (s := s.draw), ?bad⟩⟩
  case inRange =>
    obtain ⟨kr, kg, kb, t, hkr, hkg, hkb, ht, hbytes⟩ := tripleOf_inRange (s := s.draw) ho hin
    rw [emitPixel_inRange (s := s.draw) ho hin, hbytes] at hexec
    refine ⟨kr, kg, kb, t, hkr, hkg, hkb, ht, fun hroom => hexec.trans ?_, fun hfull => hexec.trans ?_⟩
    · exact emitAll_of_room (by rw [frameLen_eq]; exact hroom)
    · exact emitAll_overrun (by rw [frameLen_eq]; exact hfull)
  case bad =>
    rw [hexec, emitPixel_bad (s := s.draw) hbad, raisePresented_of_ge (s := s.draw) hf hidx]
    rfl

/-- Settles O23: TERM is `termStores`, which on a FRAME emitted to its end replaces the last three bytes. -/
theorem termZeroesTheLastTriple : Obligations.TermZeroesTheLastTriple := by
  intro s hf
  refine ⟨fun hn => ⟨_, exec_term_of_leds hf hn, ?frame, ?length, fun i => ?reads⟩, fun hn hfull => ?full,
    exec_term_of_no_leds hf⟩
  case frame =>
    obtain ⟨f, a, -, hstores⟩ := termStores_frame s
    rw [hstores]
    rfl
  case length =>
    obtain ⟨f, a, hlen, hstores⟩ := termStores_frame s
    rw [hstores]
    exact hlen
  case reads =>
    have hread : ((termStores s).setResult .nothing).frameAt i = (termStores s).frameAt i := rfl
    have hfirst : frameIndex s.n (s.n - 1) 0 = (s.n + 31) / 32 + 3 * (s.n - 1) := by rw [frameIndex, latchLen_eq]; rfl
    have hend : frameIndex s.n (s.n - 1) 0 + 3 = (s.n + 31) / 32 + 3 * s.n := by omega
    rw [hread, frameAt_termStores, hend, hfirst]
  case full =>
    have hfull' : s.frame.length = frameLen s.n := by rw [frameLen_eq]; exact hfull
    rw [exec_term_of_full hf hfull', termWrite_eq hn hfull', latchLen_eq]

end

section
/-! PROOFS. ENCODE performed whole (R143 to R149): what it answers, by what `encodeFrame` gives. -/

namespace Sys2Proof.Machine

variable {s : State} {ps : List Pixel}

theorem exec_encode_of_fault (hf : s.fault ≠ 0) (hps : pixelsFormable s.n s.build.F ps = true) :
    exec (.encode ps) s = .next (s.setResult .nothing) :=
  (withPixels_of_formable hps).trans (unlessFaulted_of_fault hf)

theorem exec_encode_of_frame (hf : s.fault = 0) (hps : pixelsFormable s.n s.build.F ps = true) {f : List Byte}
    (he : encodeFrame s ps = .ok f) : exec (.encode ps) s = .next ((s.clearFrame.pushFrame f).setResult (.frame f)) := by
  have hexec : exec (.encode ps) s = execEncode ps s := rfl
  rw [hexec, execEncode, withPixels_of_formable hps, unlessFaulted_of_ok hf, he]

theorem exec_encode_of_raise (hf : s.fault = 0) (hps : pixelsFormable s.n s.build.F ps = true) {e : Raise}
    (he : encodeFrame s ps = .error e) : exec (.encode ps) s = .next (raise e s.clearFrame) := by
  have hexec : exec (.encode ps) s = execEncode ps s := rfl
  rw [hexec, execEncode, withPixels_of_formable hps, unlessFaulted_of_ok hf, he]

/-- A frame among the results is the one `encodeFrame` gives. -/
theorem encodeFrame_of_exec {t : State} {f : List Byte} (h : exec (.encode ps) s = .next t) (hr : t.result = .frame f) :
    ps.length = s.n ∧ encodeFrame s ps = .ok f := by
  obtain ⟨hps, ⟨-, rfl⟩ | ⟨-, ⟨e, -, rfl⟩ | ⟨g, he, rfl⟩⟩⟩ := execEncode_next h
  · cases hr
  · rw [raise_result] at hr; cases hr
  · cases hr; exact ⟨pixelsFormable_length hps, he⟩

theorem encodeFrame_of_dataBytes_error {e : Raise} (he : dataBytes s 0 ps = .error e) : encodeFrame s ps = .error e := by
  simp only [encodeFrame, he]

/-- ENCODE with an out-of-range code raises for the first in scan order (R149, R198). -/
theorem exec_encode_of_firstBad (hf : s.fault = 0) (ho : s.order.toNat ≤ 5) (hps : pixelsFormable s.n s.build.F ps = true)
    {idx : Nat} {p : Pixel} {c : Channel} (hp : ps[idx]? = some p) (hbad : firstBadChannel s.build.F p = some c)
    (hbefore : ∀ j p', j < idx → ps[j]? = some p' → inRange s.build.F p') :
    exec (.encode ps) s = .next
      { s with frame := [], frameAhead := [], fault := 1, faultPix := idx, faultCh := channelCode c, result := .nothing } := by
  have hd := dataBytes_firstBad ho 0 idx hp hbad hbefore
  rw [Nat.zero_add] at hd
  rw [exec_encode_of_raise hf hps (encodeFrame_of_dataBytes_error hd), raise_range (s := s.clearFrame) hf]
  rfl

theorem frameOf_of_leds (hn : 1 ≤ s.n) :
    frameOf s ps = List.replicate ((s.n + 31) / 32) 0 ++ ps.dropLast.flatMap (tripleOf s) ++ [0, 0, 0] := by
  rw [frameOf, if_neg (by omega), ceilDiv_32]

end Sys2Proof.Machine

open Sys2Proof Sys2Proof.Machine

/-- Settles O25: ENCODE of in-range pixels returns `frameOf`. -/
theorem encodeReturnsTheFrame : Obligations.EncodeReturnsTheFrame := by
  intro s ps hf ho hn hps hin
  exact ⟨_, rfl, by rw [exec_encode_inRange hf ho hps hin, frameOf_of_leds hn]; rfl⟩

/-- Settles O26: every frame `encodeFrame` gives has that length. -/
theorem encodeLength : Obligations.EncodeLength := by
  intro s t ps f h hr
  obtain ⟨hlen, he⟩ := encodeFrame_of_exec h hr
  obtain ⟨-, -, -, hf⟩ := encodeFrame_ok hlen he
  rw [hf, frameLen_eq]

/-- Settles O30: the two cases of `fault`. -/
theorem encodeFaultsAtTheFirstBadCode : Obligations.EncodeFaultsAtTheFirstBadCode := by
  refine fun s ps hps => ⟨fun idx p c hf ho hp hbad hbefore => ?_, fun hf => exec_encode_of_fault hf hps⟩
  rw [exec_encode_of_firstBad hf ho hps hp hbad hbefore]
  rfl

/-- Settles O27: one latch byte, no triple but the overwritten one, and the terminator. -/
theorem oneLedFrameIsFourZeroBytes : Obligations.OneLedFrameIsFourZeroBytes := by
  intro s p hf ho hn hfits
  have hps : pixelsFormable s.n s.build.F [p] = true := by simp [pixelsFormable, hn, hfits]
  refine ⟨fun hin => ?inRange, fun c hbad => ?bad⟩
  case inRange =>
    have hframe : frameOf s [p] = [0, 0, 0, 0] := by rw [frameOf_of_leds hn.ge, hn]; rfl
    rw [exec_encode_inRange hf ho hps (by simpa using hin), hframe]
    rfl
  case bad =>
    rw [exec_encode_of_firstBad hf ho hps rfl hbad (fun j _ hj => absurd hj (Nat.not_lt_zero j))]
    rfl

/-- Settles O28: no latch byte, no data byte, and no TERM. -/
theorem noLedsGiveTheEmptyFrame : Obligations.NoLedsGiveTheEmptyFrame := by
  intro s hf hn
  have hps : pixelsFormable s.n s.build.F [] = true := by simp [pixelsFormable, hn]
  have hframe : encodeFrame s [] = .ok [] := by simp [encodeFrame, dataBytes, hn, latchBytes, latchLen_eq]
  rw [exec_encode_of_frame hf hps hframe]
  rfl

end

section
/-! PROOFS. Where the zero bytes of a frame stand (R148): its data bytes are gamma bytes. -/

namespace Sys2Proof.Machine

/-- A byte of a frame is a zero of the latch, one of its data bytes, or a zero of the terminator. -/
theorem frameByte_cases {l p : Nat} {d : List Byte} {b : Byte}
    (h : (List.replicate l (0 : Byte) ++ d ++ [0, 0, 0])[p]? = some b) :
    p < l ∧ b = 0 ∨ l ≤ p ∧ p < l + d.length ∧ b ∈ d ∨ l + d.length ≤ p ∧ b = 0 := by
  rw [List.append_assoc] at h
  by_cases hlatch : p < l
  · rw [List.getElem?_append_left (by simpa using hlatch)] at h
    exact .inl ⟨hlatch, List.eq_of_mem_replicate (List.mem_of_getElem? h)⟩
  · rw [List.getElem?_append_right (by simpa using hlatch), List.length_replicate] at h
    by_cases hdata : p - l < d.length
    · rw [List.getElem?_append_left hdata] at h
      exact .inr (.inl ⟨by omega, by omega, List.mem_of_getElem? h⟩)
    · rw [List.getElem?_append_right (by omega)] at h
      exact .inr (.inr ⟨by omega, by simpa using List.mem_of_getElem? h⟩)

end Sys2Proof.Machine

open Sys2Proof Sys2Proof.Machine

/-- Settles O29: the three parts of a frame. -/
theorem zeroBytesAreLatchAndTerminator : Obligations.ZeroBytesAreLatchAndTerminator := by
  intro s t ps f hrom hn h hr p b hb
  obtain ⟨hlen, he⟩ := encodeFrame_of_exec h hr
  obtain ⟨-, -, rfl, -⟩ := encodeFrame_ok hlen he
  rw [frameOf_of_leds hn] at hb ⊢
  have htop : ∀ b ∈ ps.dropLast.flatMap (tripleOf s), b &&& 0x80 = 0x80 := fun b hm => by
    obtain ⟨q, -, hq⟩ := List.mem_flatMap.mp hm
    exact tripleOf_topBit hrom q b hq
  simp only [List.length_append, List.length_replicate, List.length_cons, List.length_nil, Nat.zero_add, Nat.reduceAdd,
    Nat.add_sub_cancel]
  rcases frameByte_cases hb with ⟨hp, hzero⟩ | ⟨hlo, hhi, hdata⟩ | ⟨hp, hzero⟩
  · exact ⟨⟨fun _ => .inl hp, fun _ => hzero⟩, fun hne => absurd hzero hne⟩
  · have hgamma := htop b hdata
    exact ⟨⟨fun hzero => absurd hzero (ne_zero_of_topBit hgamma), fun hp => by omega⟩, fun _ => hgamma⟩
  · exact ⟨⟨fun _ => .inr hp, fun _ => hzero⟩, fun hne => absurd hzero hne⟩

end

section
/-! PROOFS. What ENCODE reads of the state (R146): the straps, the ROM and the build parameters. -/

namespace Sys2Proof.Machine

/-- Two states agree on what PIXEL reads: the strap `ORDER`, the ROM and the build parameters. -/
structure SameDatapath (s s' : State) : Prop where
  order : s.order = s'.order
  gamma : s.gamma = s'.gamma
  build : s.build = s'.build

variable {s s' : State}

theorem SameDatapath.channelByte_eq (h : SameDatapath s s') (idx : Nat) (c : Channel) (q : Nat) :
    channelByte s idx c q = channelByte s' idx c q := by
  simp only [channelByte, gammaRead, h.gamma, h.build]

theorem SameDatapath.pixelBytes_eq (h : SameDatapath s s') (idx : Nat) (p : Pixel) :
    pixelBytes s idx p = pixelBytes s' idx p := by
  simp only [pixelBytes, h.channelByte_eq, h.order, h.build]

theorem SameDatapath.dataBytes_eq (h : SameDatapath s s') : ∀ (idx : Nat) (ps : List Pixel),
    dataBytes s idx ps = dataBytes s' idx ps
  | _, [] => rfl
  | idx, p :: ps => by simp only [dataBytes, h.pixelBytes_eq, h.dataBytes_eq (idx + 1) ps]

theorem SameDatapath.encodeFrame_eq (h : SameDatapath s s') (hn : s.n = s'.n) (ps : List Pixel) :
    encodeFrame s ps = encodeFrame s' ps := by
  simp only [encodeFrame, h.dataBytes_eq, hn]

@[simp] theorem raise_input (e : Raise) (s : State) : (raise e s).input = s.input := by
  obtain ⟨_, _, _, h⟩ := raise_frame e s; rw [h]
@[simp] theorem raise_freeCount (e : Raise) (s : State) : (raise e s).freeCount = s.freeCount := by
  obtain ⟨_, _, _, h⟩ := raise_frame e s; rw [h]

/-- The record of the result of an ENCODE that runs: its frame, or nothing after a raise. -/
def encodeResult : Except Raise (List Byte) → Result
  | .ok f => .frame f
  | .error _ => .nothing

/-- What ENCODE returns, by the fault and by what `encodeFrame` gives. -/
theorem exec_encode_result {t : State} {ps : List Pixel} (h : exec (.encode ps) s = .next t) :
    t.result = if s.fault = 0 then encodeResult (encodeFrame s ps) else .nothing := by
  obtain ⟨-, ⟨hf, rfl⟩ | ⟨hf, ⟨e, he, rfl⟩ | ⟨f, he, rfl⟩⟩⟩ := execEncode_next h
  · rw [if_neg hf]
  · rw [if_pos hf, he, raise_result, encodeResult]
  · rw [if_pos hf, he, encodeResult]

end Sys2Proof.Machine

open Sys2Proof Sys2Proof.Machine

/-- Settles O31: the result is that of `encodeFrame`, a raise writes the fault fields only, and in-range pixels give a frame. -/
theorem encodeIsPureAndTotal : Obligations.EncodeIsPureAndTotal := by
  refine ⟨fun s s' t t' ps hn ho hg hb hf h h' => ?pure, fun s t ps h => ?frame, fun s ps hf ho hps hin => ?total⟩
  case pure =>
    have hsame : SameDatapath s s' := ⟨ho, hg, hb⟩
    rw [exec_encode_result h, exec_encode_result h', hsame.encodeFrame_eq hn, hf]
  case frame =>
    obtain ⟨-, ⟨-, rfl⟩ | ⟨hf, ⟨e, -, rfl⟩ | ⟨f, -, rfl⟩⟩⟩ := execEncode_next h
    · exact ⟨rfl, rfl, rfl, rfl, rfl, rfl, rfl, rfl, fun _ => ⟨rfl, rfl⟩⟩
    · exact ⟨raise_n e _, raise_order e _, raise_gamma e _, raise_lastPixels e _, raise_history e _, raise_build e _,
        raise_input e _, raise_freeCount e _, fun hsame => absurd (hsame.trans hf) (raise_fault_ne e _)⟩
    · exact ⟨rfl, rfl, rfl, rfl, rfl, rfl, rfl, rfl, fun _ => ⟨rfl, rfl⟩⟩
  case total => exact ⟨_, _, exec_encode_inRange hf ho hps hin, rfl, hf⟩

end

section
/-! PROOFS. LATCH, PIXEL 0 to N-1 and TERM in turn do what ENCODE does whole (R143, R151): the run of the PIXELs appends the data
bytes to FRAME, or raises what the data bytes raise and then idles. -/

namespace Sys2Proof.Machine

variable {s t : State}

theorem execAll_cons_of_next {i : Instr} (h : exec i s = .next t) (is : List Instr) : execAll (i :: is) s = execAll is t := by
  rw [execAll, h]

theorem execAll_append_of_next : ∀ {is : List Instr} {s : State}, execAll is s = .next t → ∀ js : List Instr,
    execAll (is ++ js) s = execAll js t
  | [], _, h, _ => by cases h; rfl
  | i :: is, s, h, js => by
    rw [execAll] at h
    cases hi : exec i s with
    | next w => rw [hi] at h; rw [List.cons_append, execAll_cons_of_next hi, execAll_append_of_next h]
    | fault | refused => rw [hi] at h; cases h

theorem execAll_singleton_of_next {i : Instr} (h : exec i s = .next t) : execAll [i] s = .next t :=
  execAll_cons_of_next h []

/-- PIXEL for each index from `idx` on, `k` of them. -/
def pixelSteps (ps : List Pixel) (idx k : Nat) : List Instr := (List.range' idx k).map fun i => .pixel i ps

theorem encodeSteps_eq (n : Nat) (ps : List Pixel) : encodeSteps n ps = .latch :: (pixelSteps ps 0 n ++ [.term]) := by
  simp [encodeSteps, pixelSteps, List.range_eq_range']

theorem exec_pixel_of_fault (hf : s.fault ≠ 0) {ps : List Pixel} (hps : pixelsFormable s.n s.build.F ps = true) (idx : Nat) :
    exec (.pixel idx ps) s = .next (s.setResult .nothing) :=
  (withPixels_of_formable hps).trans (unlessFaulted_of_fault hf)

/-- In the faulted state PIXELs leave the status. -/
theorem execAll_pixelSteps_of_fault {ps : List Pixel} : ∀ (k idx : Nat) (s : State), s.fault ≠ 0 →
    pixelsFormable s.n s.build.F ps = true → ∃ t, execAll (pixelSteps ps idx k) s = .next t ∧ t.status = s.status
  | 0, _, s, _, _ => ⟨s, rfl, rfl⟩
  | k + 1, idx, s, hf, hps => by
    obtain ⟨t, hrun, hstatus⟩ := execAll_pixelSteps_of_fault k (idx + 1) (s.setResult .nothing) hf hps
    exact ⟨t, (execAll_cons_of_next (exec_pixel_of_fault hf hps idx) _).trans hrun, hstatus⟩

theorem State.status_eq_iff : s.status = t.status ↔ s.fault = t.fault ∧ s.faultPix = t.faultPix ∧ s.faultCh = t.faultCh := by
  simp only [State.status, Status.mk.injEq]

/-- A raise sets the status by the status it finds. -/
theorem raise_status_congr {e : Raise} (h : s.status = t.status) : (raise e s).status = (raise e t).status := by
  obtain ⟨hf, -, -⟩ := State.status_eq_iff.mp h
  by_cases h0 : t.fault = 0
  · cases e with
    | range => rw [raise_range h0, raise_range (hf.trans h0)]; rfl
    | cfg => rw [raise_cfg h0, raise_cfg (hf.trans h0)]; rfl
  · rw [raise_of_fault h0, raise_of_fault (hf ▸ h0)]
    exact h

/-- What a run of PIXELs from `v` to `t` did, by what their data bytes are: it appended them to FRAME, or it left the status of
the raise. -/
def PixelsRan (v t : State) : Except Raise (List Byte) → Prop
  | .ok d => ∃ a r, t = { v with frame := v.frame ++ d, frameAhead := a, result := r }
  | .error e => t.status = (raise e v).status

theorem sameDatapath_emit (v : State) (bs : List Byte) : SameDatapath ((v.pushBytes bs).setResult .nothing) v := ⟨rfl, rfl, rfl⟩

/-- A PIXEL that emits its bytes, ahead of a run of PIXELs. -/
theorem pixelsRan_cons {v : State} {idx : Nat} {p : Pixel} {qs : List Pixel} {bs : List Byte} (hb : pixelBytes v idx p = .ok bs)
    (h : PixelsRan ((v.pushBytes bs).setResult .nothing) t (dataBytes ((v.pushBytes bs).setResult .nothing) (idx + 1) qs)) :
    PixelsRan v t (dataBytes v idx (p :: qs)) := by
  rw [(sameDatapath_emit v bs).dataBytes_eq] at h
  cases hd : dataBytes v (idx + 1) qs with
  | error e =>
    simp only [dataBytes, hb, hd, PixelsRan] at h ⊢
    exact h.trans (raise_status_congr rfl)
  | ok d =>
    simp only [dataBytes, hb, hd, PixelsRan, ← List.append_assoc] at h ⊢
    exact h

/-- PIXEL for each pixel of the rest `qs` of a sequence, when FRAME holds the bytes before them. -/
theorem execAll_pixelSteps {ps : List Pixel} : ∀ (qs : List Pixel) (idx : Nat) (v : State), ps.drop idx = qs → v.fault = 0 →
    pixelsFormable v.n v.build.F ps = true → v.frame.length = latchLen v.n + 3 * idx →
    ∃ t, execAll (pixelSteps ps idx qs.length) v = .next t ∧ PixelsRan v t (dataBytes v idx qs)
  | [], _, v, _, _, _, _ => ⟨v, rfl, v.frameAhead, v.result, by simp⟩
  | p :: qs, idx, v, hdrop, hf, hps, hat => by
    have hp : ps[idx]? = some p := by rw [← List.head?_drop, hdrop]; rfl
    have hrest : ps.drop (idx + 1) = qs := by rw [← List.tail_drop, hdrop]; rfl
    have hsteps : pixelSteps ps idx (p :: qs).length = .pixel idx ps :: pixelSteps ps (idx + 1) qs.length := rfl
    rw [hsteps]
    cases hb : pixelBytes v idx p with
    | error e =>
      have hexec := exec_pixel_of_raise hf hps hp hb
      obtain ⟨t, hrun, hstatus⟩ := execAll_pixelSteps_of_fault (ps := ps) qs.length (idx + 1) (raise e v)
        (raise_fault_ne e v) (by simpa using hps)
      refine ⟨t, (execAll_cons_of_next hexec _).trans hrun, ?_⟩
      simpa only [dataBytes, hb, PixelsRan] using hstatus
    | ok bs =>
      obtain ⟨-, -, -, hlen⟩ := pixelBytes_ok hb
      have hlt : idx < v.n := lt_n_of_getElem? hps hp
      have hroom : v.frame.length + bs.length ≤ frameLen v.n := by rw [hat, hlen, frameLen]; omega
      have hexec : exec (.pixel idx ps) v = .next ((v.pushBytes bs).setResult .nothing) :=
        (exec_pixel_of_bytes hf hps hp hb).trans (emitAll_of_room hroom)
      have hat' : (v.frame ++ bs).length = latchLen v.n + 3 * (idx + 1) := by rw [List.length_append, hat, hlen]; omega
      obtain ⟨t, hrun, hran⟩ := execAll_pixelSteps qs (idx + 1) ((v.pushBytes bs).setResult .nothing) hrest hf hps hat'
      exact ⟨t, (execAll_cons_of_next hexec _).trans hrun, pixelsRan_cons hb hran⟩

/-- LATCH from an empty FRAME, then PIXEL for each index: what is left of ENCODE's steps is TERM. -/
theorem execAll_encodeSteps {ps : List Pixel} (hf : s.fault = 0) (hnil : s.frame = [])
    (hps : pixelsFormable s.n s.build.F ps = true) :
    ∃ v, execAll (encodeSteps s.n ps) s = execAll [.term] v ∧
      PixelsRan ((s.pushBytes (latchBytes s.n)).setResult .nothing) v (dataBytes s 0 ps) := by
  have hlen : s.frame.length + (latchBytes s.n).length = latchLen s.n := by rw [hnil, latchBytes_length]; exact Nat.zero_add _
  have hlatch : exec .latch s = .next ((s.pushBytes (latchBytes s.n)).setResult .nothing) :=
    (exec_latch_of_ok hf).trans (emitAll_of_room (by rw [hlen]; exact Nat.le_add_right _ _))
  obtain ⟨v, hrun, hran⟩ := execAll_pixelSteps ps 0 ((s.pushBytes (latchBytes s.n)).setResult .nothing) rfl hf hps
    ((List.length_append).trans hlen)
  refine ⟨v, ?_, by rwa [(sameDatapath_emit s _).dataBytes_eq] at hran⟩
  rw [pixelsFormable_length hps] at hrun
  rw [encodeSteps_eq, execAll_cons_of_next hlatch, execAll_append_of_next hrun]

theorem termWrite_nil (n : Nat) : termWrite n [] = [] := by simp [termWrite]

/-- ENCODE's frame from its data bytes; with `N = 0` it is empty, and TERM's writes are past its end. -/
theorem encodeFrame_of_dataBytes {ps : List Pixel} (hlen : ps.length = s.n) {d : List Byte} (hd : dataBytes s 0 ps = .ok d) :
    encodeFrame s ps = .ok (termWrite s.n (latchBytes s.n ++ d)) := by
  by_cases hn : s.n = 0
  · obtain ⟨-, -, -, hdlen⟩ := dataBytes_ok hd
    have hframe : latchBytes s.n ++ d = [] := List.length_eq_zero_iff.mp (by
      rw [List.length_append, latchBytes_length, hdlen, hlen, hn]; rfl)
    simp only [encodeFrame, hd, hframe, termWrite_nil, ite_self]
  · simp only [encodeFrame, hd, if_pos (show 1 ≤ s.n by omega)]

end Sys2Proof.Machine

open Sys2Proof Sys2Proof.Machine

/-- Settles O34: the two cases of the data bytes. TERM runs on the FRAME emitted to its end, or idles after the raise. -/
theorem encodeRefinesItsSteps : Obligations.EncodeRefinesItsSteps := by
  intro s ps hf hnil hps
  have hlen := pixelsFormable_length hps
  obtain ⟨v, hrun, hran⟩ := execAll_encodeSteps hf hnil hps
  cases hd : dataBytes s 0 ps with
  | error e =>
    have hstatus : v.status = (raise e s.clearFrame).status := by
      rw [hd] at hran; exact hran.trans (raise_status_congr rfl)
    obtain ⟨hfault, hpix, hch⟩ := State.status_eq_iff.mp hstatus
    have hne := raise_fault_ne e s.clearFrame
    have hterm : exec .term v = .next (v.setResult .nothing) := unlessFaulted_of_fault (by rwa [hfault])
    exact ⟨_, _, hrun.trans (execAll_singleton_of_next hterm),
      exec_encode_of_raise hf hps (encodeFrame_of_dataBytes_error hd), hfault, hpix, hch, fun h0 => absurd h0 hne⟩
  | ok d =>
    have hframe := encodeFrame_of_dataBytes hlen hd
    rw [hd] at hran
    obtain ⟨a, r, rfl⟩ := hran
    have hemitted : s.frame ++ latchBytes s.n ++ d = latchBytes s.n ++ d := by rw [hnil, List.nil_append]
    have hfull : (s.frame ++ latchBytes s.n ++ d).length = frameLen s.n := by
      obtain ⟨-, -, -, hdlen⟩ := dataBytes_ok hd
      rw [hemitted, List.length_append, latchBytes_length, hdlen, hlen, frameLen]
    refine ⟨_, _, hrun.trans (execAll_singleton_of_next (exec_term_of_full hf hfull)), exec_encode_of_frame hf hps hframe,
      rfl, rfl, rfl, fun _ => ?_⟩
    rw [← hemitted]
    rfl

end

section
/-! PROOFS. CHUNK's chunks (R166): put together they are the sequence, so their bytes are its bytes; all but the last have 20. -/

namespace Sys2Proof.Machine

/-- The first `k` chunks put together are the first `20*k` bytes. -/
theorem flatten_map_chunk (f : List Byte) : ∀ k : Nat,
    ((List.range k).map fun j => (f.drop (Config.chunkMax * j)).take Config.chunkMax).flatten = f.take (Config.chunkMax * k)
  | 0 => by simp
  | k + 1 => by
    rw [List.range_succ, List.map_append, List.flatten_append, flatten_map_chunk f k, Nat.mul_succ, List.take_add]
    simp

theorem chunksOf_length_eq (f : List Byte) : (chunksOf f).length = (f.length + 19) / 20 := by
  simp [chunksOf, ceilDiv_20]

theorem flatten_chunksOf (f : List Byte) : (chunksOf f).flatten = f := by
  rw [chunksOf, flatten_map_chunk, List.take_of_length_le]
  simp only [Config.chunkMax, ceilDiv_20]
  omega

theorem mem_of_mem_chunksOf {f c : List Byte} (hc : c ∈ chunksOf f) {b : Byte} (hb : b ∈ c) : b ∈ f := by
  rw [← flatten_chunksOf f]
  exact List.mem_flatten.mpr ⟨c, hc, hb⟩

/-- A chunk before the last begins at least 20 bytes before the end. -/
theorem length_of_mem_dropLast_chunksOf {f c : List Byte} (h : c ∈ (chunksOf f).dropLast) : c.length = 20 := by
  obtain ⟨j, hj, rfl⟩ := List.mem_iff_getElem.mp h
  rw [List.length_dropLast, chunksOf_length_eq] at hj
  rw [List.getElem_dropLast]
  simp only [chunksOf, List.getElem_map, List.getElem_range, List.length_take, List.length_drop, Config.chunkMax]
  omega

/-- The dispatches of a frame carry its chunks. -/
theorem dispatchesOf_bytes (f : List Byte) (mc : Clock) : (dispatchesOf f mc).map (·.bytes) = chunksOf f :=
  List.map_map.trans (List.map_id _)

theorem exec_chunk_of_ok {s : State} (hf : s.fault = 0) (f : List Byte) :
    exec (.chunk f) s = .next (s.setResult (.chunks (chunksOf f))) :=
  unlessFaulted_of_ok hf

end Sys2Proof.Machine

open Sys2Proof Sys2Proof.Machine

/-- Settles O41: with no fault recorded CHUNK returns `chunksOf` of its operand. -/
theorem chunksReconstructTheFrame : Obligations.ChunksReconstructTheFrame := fun _ f hf =>
  ⟨chunksOf f, exec_chunk_of_ok hf f, flatten_chunksOf f, fun _ => chunksOf_length, fun _ => length_of_mem_dropLast_chunksOf,
    chunksOf_length_eq f⟩

end

section
/-! PROOFS. The host's three operations (R176): each that the port can carry completes, and none leaves a FRAME, a byte outside the
two classes in `history`, or a recorded position that is no pixel's. -/

namespace Sys2Proof.Machine

variable {i : Instr} {s t : State}

theorem hostOperation_iff (i : Instr) : hostOperation i = true ↔
    (∃ n order, i = .reset n order) ∨ (∃ ps, isSubmitOf i ps) ∨ ∃ ps, i = .encode ps := by
  constructor
  · intro h
    cases i with
    | reset n order => exact .inl ⟨n, order, rfl⟩
    | submitNow ps => exact .inr (.inl ⟨ps, .inl rfl⟩)
    | submitAt ps target => exact .inr (.inl ⟨ps, .inr ⟨target, rfl⟩⟩)
    | encode ps => exact .inr (.inr ⟨ps, rfl⟩)
    | _ => cases h
  · rintro (⟨n, order, rfl⟩ | ⟨ps, rfl | ⟨target, rfl⟩⟩ | ⟨ps, rfl⟩) <;> rfl

theorem isNeverCode_of_hostOperation (h : hostOperation i = true) : isNeverCode i = false := by
  obtain ⟨_, _, rfl⟩ | ⟨_, rfl | ⟨_, rfl⟩⟩ | ⟨_, rfl⟩ := (hostOperation_iff i).mp h <;> rfl

/-- No operation of the host's works on FRAME where it stands. -/
theorem writesFrame_of_hostOperation (h : hostOperation i = true) : writesFrame i = false := by
  obtain ⟨_, _, rfl⟩ | ⟨_, rfl | ⟨_, rfl⟩⟩ | ⟨_, rfl⟩ := (hostOperation_iff i).mp h <;> rfl

theorem completes_of_hostOperation (h : hostOperation i = true) (hwf : i.wellFormed s.n s.build.F = true) :
    Completes (exec i s) :=
  exec_completes hwf (isNeverCode_of_hostOperation h) (by simp [writesFrame_of_hostOperation h])

theorem exec_ne_fault_of_hostOperation (h : hostOperation i = true) (r : Fault) : exec i s ≠ .fault r := by
  cases hwf : i.wellFormed s.n s.build.F with
  | true => obtain ⟨t, ht⟩ := completes_of_hostOperation h hwf; simp [ht]
  | false => obtain ⟨e, he⟩ := exec_refused_of_not_wellFormed hwf; simp [he]

/-! ## What the host's operations keep -/

theorem hostTransaction_of_decode {F : Nat} {x : Txn} (h : decode F x = .ok i) : hostTransaction F x = hostOperation i := by
  simp only [hostTransaction, h]

/-- A transaction the host has presented decodes, if it does, to one of its operations. -/
theorem State.HostInv.decoded (h : s.HostInv) {x : Txn} {rest : List Txn} (hin : s.input = x :: rest)
    (hd : decode s.build.F x = .ok i) : hostOperation i = true := by
  rw [← hostTransaction_of_decode hd]
  exact h.input x (by simp [hin])

/-- The rest of the queue is the host's too. -/
theorem State.HostInv.rest (h : s.HostInv) {x : Txn} {rest : List Txn} (hin : s.input = x :: rest) : (s.setInput rest).HostInv :=
  { h with input := fun y hy => h.input y (by simp [hin, show y ∈ rest from hy]) }

/-- A raise with no fault recorded whose position is a pixel index. -/
theorem State.HostInv.raise (h : s.HostInv) (hf : s.fault = 0) {e : Raise} (pos : ∀ k c, e = .range k c → k < s.n) :
    (raise e s).HostInv := by
  cases e with
  | range k c =>
    rw [raise_range hf]
    exact { h with rangePixel := fun _ => pos k c rfl }
  | cfg =>
    rw [raise_cfg hf]
    exact { h with rangePixel := by simp }

/-- RESET keeps the queue and the build parameters, and empties the rest. -/
theorem State.HostInv.resetTo (h : s.HostInv) (n : Nat) (order : BitVec 3) : (resetTo n order s).HostInv := by
  have hfields : (resetFields n order s).HostInv :=
    { input := h.input
      frameEmpty := ⟨rfl, rfl⟩
      historyLegal := by simp
      rangePixel := by simp }
  unfold Machine.resetTo
  split
  · exact hfields.raise rfl nofun
  · exact hfields

/-- With the ROM intact the bytes of the dispatches of ENCODE's frame are of the two classes (R81). -/
theorem dispatchesOf_legal {ps : List Pixel} {f : List Byte} (hg : s.gamma = gammaTable) (hlen : ps.length = s.n)
    (hframe : encodeFrame s ps = .ok f) {mc : Clock} {d : Dispatch} (hd : d ∈ dispatchesOf f mc) : ∀ b ∈ d.bytes, legalByte b := by
  obtain ⟨c, hc, rfl⟩ := List.mem_map.mp hd
  obtain ⟨-, hlegal⟩ := encodeFrame_shape hg hlen hframe
  exact fun b hb => hlegal b (mem_of_mem_chunksOf hc hb)

theorem Effect.hostInv (he : Effect i s t) (hop : hostOperation i = true) (hinv : s.Inv) (h : s.HostInv) : t.HostInv := by
  cases he with
  | returned _ ht => subst ht; exact { h with }
  | framed _ _ _ _ wr => rw [writesFrame_of_hostOperation hop] at wr; cases wr
  | raised ok e f a k _ _ _ own ht =>
    subst ht
    obtain ⟨rfl, rfl, -, pos⟩ := own hop
    have h' : State.HostInv { s with frame := [], frameAhead := [], freeCount := k } := { h with frameEmpty := ⟨rfl, rfl⟩ }
    exact h'.raise ok pos
  | encoded _ _ _ _ _ _ ht => subst ht; exact { h with frameEmpty := ⟨rfl, rfl⟩ }
  | dispatched _ _ _ hi => subst hi; cases hop
  | submitRaised ok ps e _ _ pos ht =>
    subst ht
    have h' : State.HostInv { s with lastPixels := some ps, frame := [], frameAhead := [] } :=
      { h with frameEmpty := ⟨rfl, rfl⟩ }
    refine h'.raise ok fun k c hk => ?_
    obtain ⟨_, _, he, hlt⟩ | he := pos
    · cases he.symm.trans hk; exact hlt
    · cases he.symm.trans hk
  | submitted _ ps f mc _ hframe hp ht =>
    subst ht
    refine { h with frameEmpty := ⟨rfl, rfl⟩, historyLegal := fun d hd => ?_ }
    rcases List.mem_append.mp hd with hold | hnew
    · exact h.historyLegal d hold
    · exact dispatchesOf_legal hinv.romIntact (pixelsFormable_length hp) hframe hnew

theorem exec_keeps_hostInv (hx : exec i s = .next t) (hop : hostOperation i = true) (hinv : s.Inv) (h : s.HostInv) :
    t.HostInv := by
  cases hr : isReset i with
  | true =>
    obtain ⟨n, order, rfl⟩ := exec_reset hx hr
    exact h.resetTo n order
  | false => exact (exec_effect hx hr).hostInv hop hinv h

theorem step_ne_fault (h : s.HostInv) (r : Fault) : step s ≠ .fault r := by
  cases hin : s.input with
  | nil => simp [step_of_input_nil hin]
  | cons x rest =>
    cases hd : decode s.build.F x with
    | error e => simp [step_of_decode_error hin hd]
    | ok i => rw [step_of_decode_ok hin hd]; exact exec_ne_fault_of_hostOperation (h.decoded hin hd) r

end Sys2Proof.Machine

open Sys2Proof Sys2Proof.Machine

/-- Settles O60: a step idles or performs one of the host's operations, and each of them keeps both invariants. -/
theorem hostOperationsKeepTheirInvariant : Obligations.HostOperationsKeepTheirInvariant := by
  refine fun s hinv hhost => ⟨step_ne_fault hhost, fun t h => ?_⟩
  rcases step_next h with ⟨-, rfl⟩ | ⟨x, rest, i, hin, hd, hx⟩
  · exact ⟨hinv, hhost⟩
  · have hinv' := hinv.setInput rest
    exact ⟨exec_keeps_inv hx hinv', exec_keeps_hostInv hx (hhost.decoded hin hd) hinv' (hhost.rest hin)⟩

/-- Settles O59: the constructors of `Instr`, and the two cases of `Instr.wellFormed`. -/
theorem hostReachesLfeThroughThreeOperations : Obligations.HostReachesLfeThroughThreeOperations :=
  ⟨hostOperation_iff, fun _ _ h => ⟨completes_of_hostOperation h, exec_refused_of_not_wellFormed⟩⟩

end

section
/-! PROOFS. SUBMIT (R160 to R164, R173): what it answers while faulted, when `last_pixels` holds the sequence, and by what
`encodeFrame` gives; and the other operations of unit TS with no fault recorded. -/

namespace Sys2Proof.Machine

variable {s t : State} {ps : List Pixel}

/-- In the faulted state SUBMIT returns at once (R173). -/
theorem submit_of_fault (hf : s.fault ≠ 0) (hps : pixelsFormable s.n s.build.F ps = true) (b : Bool) (target : Time) :
    submit ps b target s = .next (s.setResult .nothing) :=
  (withPixels_of_formable hps).trans (unlessFaulted_of_fault hf)

/-- A SUBMIT of the sequence in the cache is suppressed (R163). -/
theorem submit_of_cached (hf : s.fault = 0) (hps : pixelsFormable s.n s.build.F ps = true) (hc : s.lastPixels = some ps)
    (b : Bool) (target : Time) : submit ps b target s = .next (s.setResult .nothing) := by
  rw [submit, withPixels_of_formable hps, unlessFaulted_of_ok hf, if_pos (by simp [suppresses, hc])]

/-- A SUBMIT whose frame is encoded writes the cache and dispatches the frame (R160). -/
theorem submit_of_frame (hf : s.fault = 0) (hps : pixelsFormable s.n s.build.F ps = true) (hc : s.lastPixels ≠ some ps)
    {f : List Byte} (he : encodeFrame s ps = .ok f) (b : Bool) (target : Time) :
    submit ps b target s = .next
      { s with lastPixels := some ps, frame := [], frameAhead := [], history := s.history ++ dispatchesOf f (minClock b target),
               result := .nothing } := by
  rw [submit, withPixels_of_formable hps, unlessFaulted_of_ok hf, if_neg (by simpa [suppresses] using hc), he]
  simp only [dispatchAll_eq]
  rfl

/-- A SUBMIT whose ENCODE raises has written the cache (R164). -/
theorem submit_of_raise (hf : s.fault = 0) (hps : pixelsFormable s.n s.build.F ps = true) (hc : s.lastPixels ≠ some ps)
    {e : Raise} (he : encodeFrame s ps = .error e) (b : Bool) (target : Time) :
    submit ps b target s = .next (raise e (s.setCache ps).clearFrame) := by
  rw [submit, withPixels_of_formable hps, unlessFaulted_of_ok hf, if_neg (by simpa [suppresses] using hc), he]

/-- A SUBMIT of changed in-range pixels dispatches the frame ENCODE returns. -/
theorem submit_inRange (hf : s.fault = 0) (ho : s.order.toNat ≤ 5) (hps : pixelsFormable s.n s.build.F ps = true)
    (hin : ∀ p ∈ ps, inRange s.build.F p) (hc : s.lastPixels ≠ some ps) (b : Bool) (target : Time) :
    submit ps b target s = .next
      { s with lastPixels := some ps, frame := [], frameAhead := [],
               history := s.history ++ dispatchesOf (frameOf s ps) (minClock b target), result := .nothing } :=
  submit_of_frame hf hps hc (encodeFrame_inRange ho (pixelsFormable_length hps) hin) b target

/-- A SUBMIT that ends without a fault leaves its sequence in the cache, and the port carries that sequence still. -/
theorem cached_of_submit {b : Bool} {target : Time} (h : submit ps b target s = .next t) (ht : t.fault = 0) :
    pixelsFormable t.n t.build.F ps = true ∧ t.lastPixels = some ps := by
  obtain ⟨hps, ⟨hf, rfl⟩ | ⟨-, hc, rfl⟩ | ⟨-, -, ⟨e, -, rfl⟩ | ⟨f, -, rfl⟩⟩⟩ := submit_next h
  · exact absurd ht hf
  · exact ⟨hps, hc⟩
  · exact absurd ht (raise_fault_ne e _)
  · exact ⟨hps, rfl⟩

theorem exec_suppress_of_ok (hf : s.fault = 0) (hps : pixelsFormable s.n s.build.F ps = true) :
    exec (.suppress ps) s = .next (s.setResult (.truth (suppresses s ps))) :=
  (withPixels_of_formable hps).trans (unlessFaulted_of_ok hf)

theorem exec_minclk_of_ok (hf : s.fault = 0) (b : Bool) (target : Time) :
    exec (.minclk b target) s = .next (s.setResult (.clock (minClock b target))) :=
  unlessFaulted_of_ok hf

theorem exec_dispatch_of_ok (hf : s.fault = 0) {c : List Byte} (hlo : 1 ≤ c.length) (hhi : c.length ≤ 20) (mc : Clock) :
    exec (.dispatch c mc) s = .next ((s.pushDispatch c mc).setResult .nothing) :=
  (if_pos ⟨hlo, hhi⟩).trans (unlessFaulted_of_ok hf)

end Sys2Proof.Machine

open Sys2Proof Sys2Proof.Machine

/-- Settles O35: SUBMIT and ENCODE both give `frameOf`; without a target the clock is 0. -/
theorem submitNowDispatchesTheFrame : Obligations.SubmitNowDispatchesTheFrame := fun s ps hf ho hps hin hc =>
  ⟨frameOf s ps, _, exec_encode_inRange hf ho hps hin, rfl, submit_inRange hf ho hps hin hc false ⟨0⟩⟩

/-- Settles O36: as O35, with the target's clock. -/
theorem submitAtDispatchesTheFrame : Obligations.SubmitAtDispatchesTheFrame := fun s ps target hf ho hps hin hc =>
  ⟨frameOf s ps, _, exec_encode_inRange hf ho hps hin, rfl, submit_inRange hf ho hps hin hc true target⟩

/-- Settles O37: SUPPRESS returns `suppresses`, which is the test SUBMIT makes. -/
theorem suppressedSubmitDoesNothing : Obligations.SuppressedSubmitDoesNothing := by
  refine fun s ps hf hps => ⟨⟨suppresses s ps, decide_eq_true_iff, exec_suppress_of_ok hf hps⟩, fun hc i hi => ?_⟩
  obtain ⟨b, target, hexec⟩ := exec_isSubmitOf hi
  exact (hexec s).trans (submit_of_cached hf hps hc b target)

/-- Settles O38: ENCODE raises for the first bad channel in scan order, after the cache is written. -/
theorem faultingSubmitWritesOnlyTheCache : Obligations.FaultingSubmitWritesOnlyTheCache := by
  intro s ps idx p c hf ho hps hc hp hbad hbefore i hi
  obtain ⟨b, target, hexec⟩ := exec_isSubmitOf hi
  have hd := dataBytes_firstBad ho 0 idx hp hbad hbefore
  rw [Nat.zero_add] at hd
  rw [hexec, submit_of_raise hf hps hc (encodeFrame_of_dataBytes_error hd), raise_range (s := (s.setCache ps).clearFrame) hf]
  rfl

/-- Settles O39: the guard of the faulted state comes before SUBMIT's own test. -/
theorem faultedSubmitReturnsAtOnce : Obligations.FaultedSubmitReturnsAtOnce := by
  intro s ps hf hps i hi
  obtain ⟨b, target, hexec⟩ := exec_isSubmitOf hi
  exact (hexec s).trans (submit_of_fault hf hps b target)

/-- Settles O40: the two values of `has_target`. -/
theorem minclkResolvesTheTarget : Obligations.MinclkResolvesTheTarget := fun _ target hf =>
  ⟨exec_minclk_of_ok hf false target, exec_minclk_of_ok hf true target⟩

/-- Settles O42: a chunk of 1 to 20 bytes passes the port's guard. -/
theorem dispatchAppendsToHistory : Obligations.DispatchAppendsToHistory := fun _ _ mc hf hlo hhi =>
  exec_dispatch_of_ok hf hlo hhi mc

/-- Settles O44: without a fault the first SUBMIT leaves its sequence in the cache, so the second is suppressed. -/
theorem repeatedSubmitIsSuppressed : Obligations.RepeatedSubmitIsSuppressed := by
  intro s t ps i j hi hj h ht
  obtain ⟨b, target, hexec⟩ := exec_isSubmitOf hi
  obtain ⟨b', target', hexec'⟩ := exec_isSubmitOf hj
  obtain ⟨hps, hc⟩ := cached_of_submit ((hexec s).symm.trans h) ht
  exact (hexec' t).trans (submit_of_cached ht hps hc b' target')

/-- Settles O46: of SUBMIT's next states one has a longer `history`, by the chunks of the frame, which put together are the frame. -/
theorem frameIsDispatchedWholeOrNotAtAll : Obligations.FrameIsDispatchedWholeOrNotAtAll := by
  intro s t ps i hi h
  obtain ⟨b, target, hexec⟩ := exec_isSubmitOf hi
  obtain ⟨hps, ⟨-, rfl⟩ | ⟨-, -, rfl⟩ | ⟨hf, -, ⟨e, -, rfl⟩ | ⟨f, he, rfl⟩⟩⟩ := submit_next ((hexec s).symm.trans h)
  · exact .inl rfl
  · exact .inl rfl
  · exact .inl (raise_history e _)
  · refine .inr ⟨dispatchesOf f (minClock b target), _, f, rfl, exec_encode_of_frame hf hps he, rfl, ?_⟩
    rw [dispatchesOf_bytes, flatten_chunksOf]

end

section
/-! PROOFS. Runs of SUBMITs (R169, R174): each is suppressed or dispatches its frame, and none writes what the frames are encoded by. -/

namespace Sys2Proof.Machine

variable {s : State} {x : Submission}

/-- A submission is SUBMIT with the clock of its target (R161, R162, R165). -/
theorem Submission.exec_instr (x : Submission) :
    ∃ b target, minClock b target = x.minclock ∧ ∀ s, exec x.instr s = submit x.pixels b target s := by
  obtain ⟨ps, target⟩ := x
  cases target with
  | none => exact ⟨false, ⟨0⟩, rfl, fun _ => rfl⟩
  | some target => exact ⟨true, target, rfl, fun _ => rfl⟩

theorem exec_submission_cached (hf : s.fault = 0) (hps : pixelsFormable s.n s.build.F x.pixels = true)
    (hc : s.lastPixels = some x.pixels) : exec x.instr s = .next (s.setResult .nothing) := by
  obtain ⟨b, target, -, hexec⟩ := x.exec_instr
  exact (hexec s).trans (submit_of_cached hf hps hc b target)

/-- The state after a SUBMIT of changed in-range pixels. -/
def State.submitted (s : State) (x : Submission) : State :=
  { s with lastPixels := some x.pixels, frame := [], frameAhead := [],
           history := s.history ++ dispatchesOf (frameOf s x.pixels) x.minclock, result := .nothing }

theorem exec_submission_changed (hf : s.fault = 0) (ho : s.order.toNat ≤ 5)
    (hps : pixelsFormable s.n s.build.F x.pixels = true) (hin : ∀ p ∈ x.pixels, inRange s.build.F p)
    (hc : s.lastPixels ≠ some x.pixels) : exec x.instr s = .next (s.submitted x) := by
  obtain ⟨b, target, hclock, hexec⟩ := x.exec_instr
  rw [hexec, submit_inRange hf ho hps hin hc, hclock]
  rfl

/-- SUBMIT leaves what its frames are encoded by: the straps, the ROM and the build parameters. -/
theorem frameOf_submitted (s : State) (x : Submission) : frameOf (s.submitted x) = frameOf s := rfl

theorem transmitted_cons_cached {last : Option (List Pixel)} (h : last = some x.pixels) (run : List Submission) :
    transmitted last (x :: run) = transmitted last run :=
  if_pos h

theorem transmitted_cons_changed {last : Option (List Pixel)} (h : last ≠ some x.pixels) (run : List Submission) :
    transmitted last (x :: run) = x :: transmitted (some x.pixels) run :=
  if_neg h

end Sys2Proof.Machine

open Sys2Proof Sys2Proof.Machine

/-- Settles O43, by induction on the run, for every state: the first submission is suppressed or dispatched, and the rest runs from
the state it leaves. -/
theorem runOfSubmitsDispatchesEachChangeOnce : Obligations.RunOfSubmitsDispatchesEachChangeOnce := by
  intro run
  induction run with
  | nil => exact fun s hf _ _ => ⟨s, rfl, hf, by simp [transmitted]⟩
  | cons x run ih =>
    intro s hf ho hdom
    obtain ⟨⟨hps, hin⟩, hrest⟩ := List.forall_mem_cons.mp hdom
    rw [List.map_cons]
    by_cases hc : s.lastPixels = some x.pixels
    · obtain ⟨t, hrun, ht, hhist⟩ := ih (s.setResult .nothing) hf ho hrest
      refine ⟨t, (execAll_cons_of_next (exec_submission_cached hf hps hc) _).trans hrun, ht, ?_⟩
      rw [transmitted_cons_cached hc]
      exact hhist
    · obtain ⟨t, hrun, ht, hhist⟩ := ih (s.submitted x) hf ho hrest
      refine ⟨t, (execAll_cons_of_next (exec_submission_changed hf ho hps hin hc) _).trans hrun, ht, ?_⟩
      rw [transmitted_cons_changed hc, List.flatMap_cons, ← List.append_assoc]
      rw [frameOf_submitted] at hhist
      exact hhist

end

section
/-! PROOFS. The faulted state (R194, R199, R200): what an operation answers in it, and what a run leaves of it; and the cause rows
with no fault recorded (R191 to R193, log 16). -/

namespace Sys2Proof.Machine

variable {i : Instr} {s t : State}

/-- In the faulted state an operation the port can carry returns at once: it stands behind the guard of the faulted state, or, as
FAULT.NONE and FAULT.CFG, changes nothing there. -/
theorem exec_of_fault (hf : s.fault ≠ 0) (hwf : i.wellFormed s.n s.build.F = true) (hr : isReset i = false)
    (hnever : isNeverCode i = false) : exec i s = .next (s.setResult .nothing) := by
  cases i with
  | permRgb | permRbg | permGrb | permGbr | permBrg | permBgr | byteGamma | byteZero | faultRange | gamma | latch | term | minclk
  | chunk => exact unlessFaulted_of_fault hf
  | submitNow | submitAt => exact submit_of_fault hf hwf _ _
  | pixel | encode | suppress => exact (withPixels_of_formable hwf).trans (unlessFaulted_of_fault hf)
  | quant => exact (if_pos hwf).trans (unlessFaulted_of_fault hf)
  | dispatch bs mc =>
    have hlen : 1 ≤ bs.length ∧ bs.length ≤ Config.chunkMax := by simpa [Instr.wellFormed] using hwf
    exact (if_pos hlen).trans (unlessFaulted_of_fault hf)
  | faultNone => rfl
  | faultCfg => exact congrArg Host.Outcome.next (raise_of_fault hf .cfg)
  | orderReserved | reset => cases hr
  | byteNever | faultReserved => cases hnever

/-- Of the effects all but one need `fault = 0`. -/
theorem Effect.of_fault (h : Effect i s t) (hf : s.fault ≠ 0) : ∃ r, t = s.setResult r := by
  cases h with
  | returned r ht => exact ⟨r, ht⟩
  | framed ok | raised ok | encoded ok | dispatched ok | submitRaised ok | submitted ok => exact absurd ok hf

/-- With no fault recorded FAULT.RANGE raises. -/
theorem exec_faultRange_of_ok (hf : s.fault = 0) (idx : Nat) (c : Channel) :
    exec (.faultRange idx c) s = .next (raisePresented (.range idx c) s) :=
  unlessFaulted_of_ok hf

end Sys2Proof.Machine

open Sys2Proof Sys2Proof.Machine

/-- Settles O4: each operation is idle by its guard, or raises over a cause that stands. -/
theorem faultedStateIsIdle : Obligations.FaultedStateIsIdle := fun _ _ => exec_of_fault

/-- Settles O5, by induction on the run, for every faulted state: each operation writes the record of the result alone, so the
next one starts in the faulted state again. -/
theorem onlyResetLeavesTheFaultedState : Obligations.OnlyResetLeavesTheFaultedState := by
  intro is
  induction is with
  | nil =>
    intro s t _ _ h
    cases h
    exact ⟨s.result, rfl⟩
  | cons i is ih =>
    intro s t hf hall h
    obtain ⟨hr, hrest⟩ := List.forall_mem_cons.mp hall
    rw [execAll] at h
    cases hi : exec i s with
    | next w =>
      rw [hi] at h
      obtain ⟨r, rfl⟩ := (exec_effect hi hr).of_fault hf
      exact ih (s.setResult r) t hf hrest h
    | fault | refused => rw [hi] at h; cases h

/-- Settles O3: the rows are `raise`; at an index not below `N` the position is `freeIndex` (log 26). -/
theorem causeRowsTakeTheFault : Obligations.CauseRowsTakeTheFault := by
  intro s hf
  refine ⟨rfl, fun idx c hidx => ?below, fun idx c hidx => ⟨freeIndex s, freeIndex_lt, ?outside⟩, ?cfg⟩
  case below =>
    rw [exec_faultRange_of_ok hf, raisePresented_of_lt hidx, raise_range hf]
    rfl
  case outside =>
    rw [exec_faultRange_of_ok hf, raisePresented_of_ge hf hidx]
    rfl
  case cfg => exact congrArg Host.Outcome.next (raise_cfg hf)

end

section
/-! PROOFS. The reset event (R220, R32) and the first SUBMIT after it (R224); the discarded colour of the last pixel (R230). -/

namespace Sys2Proof.Machine

variable {s : State} {ps qs : List Pixel}

theorem exec_reset_legal {order : BitVec 3} (ho : order.toNat ≤ 5) (n : Nat) (s : State) :
    exec (.reset n order) s = .next (resetFields n order s) :=
  congrArg Host.Outcome.next (resetTo_legal ho n s)

theorem exec_reset_reserved {order : BitVec 3} (ho : 5 < order.toNat) (n : Nat) (s : State) :
    exec (.reset n order) s =
      .next { resetFields n order s with fault := 2, faultPix := 0, faultCh := 0, result := .nothing } :=
  congrArg Host.Outcome.next (resetTo_reserved ho n s)

/-- A frame has no byte of its last pixel. -/
theorem frameOf_congr_dropLast (h : ps.dropLast = qs.dropLast) : frameOf s ps = frameOf s qs := by
  rw [frameOf, frameOf, h]

theorem frameOf_length (ho : s.order.toNat ≤ 5) (hlen : ps.length = s.n) (hin : ∀ p ∈ ps, inRange s.build.F p) :
    (frameOf s ps).length = frameLen s.n := by
  obtain ⟨-, -, -, hl⟩ := encodeFrame_ok hlen (encodeFrame_inRange ho hlen hin)
  exact hl

/-- The dispatches of a frame put together are the frame. -/
theorem flatten_dispatchesOf (f : List Byte) (mc : Clock) : ((dispatchesOf f mc).map (·.bytes)).flatten = f := by
  rw [dispatchesOf_bytes, flatten_chunksOf]

end Sys2Proof.Machine

open Sys2Proof Sys2Proof.Machine

/-- Settles O33: both sequences are in range, so ENCODE answers `frameOf`, and they agree but for the last pixel. -/
theorem lastColourIsDiscarded : Obligations.LastColourIsDiscarded := by
  intro s ps a b hf ho hfa hfb hin ha hb
  have inRange_append {c : Pixel} (hc : inRange s.build.F c) : ∀ p ∈ ps ++ [c], inRange s.build.F p :=
    List.forall_mem_append.mpr ⟨hin, List.forall_mem_singleton.mpr hc⟩
  have hframe : frameOf s (ps ++ [a]) = frameOf s (ps ++ [b]) :=
    frameOf_congr_dropLast (by rw [List.dropLast_concat, List.dropLast_concat])
  rw [exec_encode_inRange hf ho hfa (inRange_append ha), exec_encode_inRange hf ho hfb (inRange_append hb), hframe]

/-- Settles O45: RESET leaves `none` in the cache, so the SUBMIT is not suppressed, and an empty `history`, so its dispatches are
all there are. -/
theorem firstSubmitAfterResetTransmits : Obligations.FirstSubmitAfterResetTransmits := by
  intro s n order ps i ho hps hin hi
  obtain ⟨b, target, hexec⟩ := exec_isSubmitOf hi
  have hcache : (resetFields n order s).lastPixels ≠ some ps := by simp
  have hsubmit := (hexec _).trans (submit_inRange (s := resetFields n order s) rfl ho hps hin hcache b target)
  have hrun := (execAll_cons_of_next (exec_reset_legal ho n s) [i]).trans (execAll_singleton_of_next hsubmit)
  have hlen : (frameOf (resetFields n order s) ps).length = frameLen n := frameOf_length ho (pixelsFormable_length hps) hin
  refine ⟨_, hrun, rfl, rfl, flatten_dispatchesOf _ _, hlen.trans ?_⟩
  rw [frameLen_eq]
  split <;> omega

/-- Settles O1: a legal `ORDER` leaves RESET's field writes, the fault information free (log 3); a reserved one raises over them. -/
theorem resetSamplesStrapsAndClears : Obligations.ResetSamplesStrapsAndClears := fun s n _ =>
  ⟨fun ho => ⟨_, _, exec_reset_legal ho n s⟩, fun ho => exec_reset_reserved ho n s⟩

end
